-- ==== Sys2Proof/Word.lean ====
section
/-! DEFINITION. The words the block is made of: bytes, seven-byte sequences, operation words, flags. -/

namespace Sys2Proof

/-- A byte: unsigned, 8 bits (R10). Exclusive-or of two bytes is `^^^`, bit by bit (R80). -/
abbrev Byte := BitVec 8

/-- An operation word (R60). -/
abbrev Word := BitVec 64

/-- A 7-byte frame, packet or buffer; index 0 is the first byte on the wire (R7, R12, R41). -/
abbrev Bytes7 := Vector Byte 7

/-- The validator flags: bit 0 `csum_ok`, bit 1 `hdr_ok`, bit 2 `valid` (R72). -/
abbrev Flags := BitVec 3

end Sys2Proof
end

