-- ==== Sys2Proof/Config.lean ====
section
/-! DEFINITION. The constants, the two static parameters, and the values the spec leaves free. -/

namespace Sys2Proof

/-- The header marker (R6). -/
def header : Byte := 0xAA

/-- The frame and packet length in bytes (R7). -/
def frameSize : Nat := 7

/-- `P_CHECK`: what becomes of a completed frame whose checksum byte is wrong (R8, R121). -/
inductive CheckPolicy where
  | ignore
  | reject
deriving DecidableEq, Repr

/-- `P_FORWARD`: what goes into the outbound packet (R9, R122, R123). -/
inductive ForwardPolicy where
  | commandOnly
  | full
deriving DecidableEq, Repr

/-- The configuration pair `cfg` of the step (R14), fixed for a run (R172). -/
structure Config where
  check : CheckPolicy
  forward : ForwardPolicy
deriving DecidableEq, Repr

/-- The defaults of both parameters: the reference behaviour (R8, R9). -/
def Config.default : Config := { check := .ignore, forward := .commandOnly }

/-- FREE VALUE (log entry 7): the `n`-th byte drawn for a place that R29 leaves unspecified. It has no body:
nothing can be proved about it. -/
opaque Config.freeByte : Nat → Byte

/-- FREE VALUE (log entry 8): the position after a FEED in a state that R22 and R27 rule out, ACCUMULATING with
position 7. No run reaches it. -/
opaque Config.freePosition : Nat → BitVec 3

end Sys2Proof
end

