-- ==== Sys2Proof/Syntax.lean ====
section
/-! DEFINITION. The abstract syntax: one constructor per row of spec/opcode_table.json. -/

namespace Sys2Proof

/-- An operation with its operands (R62, R65). Every operand has exactly the width of its field, so every term is
an operation some word encodes. -/
inductive Instr where
  /-- NOP: an idle step (R140). -/
  | nop
  /-- FEED b: one byte for the Framer (R101). -/
  | feed (b : Byte)
  /-- CSUM: the count `n` and all seven lanes; a lane at or above `n` is an operand and is ignored (R64, R82). -/
  | csum (n : BitVec 3) (d : Bytes7)
  /-- BUILD h, c (R91). -/
  | build (h c : Byte)
  /-- VALID: the frame to check (R86). -/
  | valid (f : Bytes7)
  /-- TXDONE ok: the sink's answer, `true` for success (R127). -/
  | txdone (ok : Bool)
  /-- RESET (R141). -/
  | reset
deriving DecidableEq, Repr

end Sys2Proof
end

