-- ==== Sys2Proof/Machine/Operands.lean ====
section
/-! DEFINITION. Operand forms: the fields of the operation word, and seven byte lanes as one 56-bit vector. -/

namespace Sys2Proof.Machine

/-- `op = w[63:60]` (R61). -/
def opField (w : Word) : BitVec 4 := w.extractLsb' 60 4

/-- `len = w[59:57]` (R61). -/
def lenField (w : Word) : BitVec 3 := w.extractLsb' 57 3

/-- `ok = w[56]`, 1 for success (R61, R65). -/
def okField (w : Word) : Bool := w.getLsbD 56

/-- `data = w[55:0]` (R61). -/
def dataField (w : Word) : BitVec 56 := w.extractLsb' 0 56

/-- `w[59:0]`, the bits a reserved-zero mask is over (R64). -/
def lowBits (w : Word) : BitVec 60 := w.extractLsb' 0 60

/-- Lane `i` of a 56-bit vector: bits `[8i+7 : 8i]` (R44). -/
def lane (d : BitVec 56) (i : Nat) : Byte := d.extractLsb' (8 * i) 8

/-- The seven bytes of a 56-bit vector, byte 0 in the least significant lane (R44). -/
def unpack (d : BitVec 56) : Bytes7 :=
  #v[lane d 0, lane d 1, lane d 2, lane d 3, lane d 4, lane d 5, lane d 6]

/-- Byte `b` in lane `i` of a 56-bit vector, every other bit zero (R44). -/
def inLane (b : Byte) (i : Nat) : BitVec 56 := b.setWidth 56 <<< (8 * i)

/-- Seven bytes as a 56-bit vector, byte 0 in the least significant lane: `Σ_i (d_i << 8i)` (R44, R61). -/
def pack (f : Bytes7) : BitVec 56 :=
  inLane f[6] 6 ||| inLane f[5] 5 ||| inLane f[4] 4 ||| inLane f[3] 3 ||| inLane f[2] 2 ||| inLane f[1] 1 |||
    inLane f[0] 0

/-- A word from its fields: `(op << 60) | (len << 57) | (ok << 56) | data` (R61). -/
def assembleWord (op : BitVec 4) (len : BitVec 3) (ok : Bool) (data : BitVec 56) : Word :=
  op.setWidth 64 <<< 60 ||| len.setWidth 64 <<< 57 ||| (BitVec.ofBool ok).setWidth 64 <<< 56 ||| data.setWidth 64

/-- The data field with the given bytes in its first lanes and zero in the others. -/
def packList (bs : List Byte) : BitVec 56 := pack (Vector.ofFn fun i : Fin 7 => bs.getD i.val 0)

end Sys2Proof.Machine
end

