-- ==== Sys2Proof/Decode.lean ====
section
/-! DEFINITION. The decoder, total on all words (R66), and the encoder, from the same tables (R61, R62, R64). -/

namespace Sys2Proof

open Machine

/-- What the decoder answers: an operation, or which of its two checks a word fails (R66, R71). -/
inductive Decoded where
  | ok (i : Instr)
  | illegalOp
  | reservedField
deriving DecidableEq, Repr

/-- The reserved-zero mask of an `op` value, over `w[59:0]` (R64). -/
def reservedMask (op : Nat) : BitVec 60 :=
  match op with
  | 0x1 => 0x0FFFFFFFFFFFFF00#60
  | 0x2 => 0x0100000000000000#60
  | 0x3 => 0x0FFFFFFFFFFF0000#60
  | 0x4 => 0x0F00000000000000#60
  | 0x5 => 0x0EFFFFFFFFFFFFFF#60
  | _ => 0x0FFFFFFFFFFFFFFF#60

/-- The operation of a word whose `op` is below 7 and whose reserved-zero bits are clear, with its operands taken as
they stand (R62, R65). -/
def operation (w : Word) : Instr :=
  match (opField w).toNat with
  | 0x0 => .nop
  | 0x1 => .feed (lane (dataField w) 0)
  | 0x2 => .csum (lenField w) (unpack (dataField w))
  | 0x3 => .build (lane (dataField w) 0) (lane (dataField w) 1)
  | 0x4 => .valid (unpack (dataField w))
  | 0x5 => .txdone (okField w)
  | _ => .reset

/-- The decoder: `op` first, then the reserved-zero bits (R66). -/
def decode (w : Word) : Decoded :=
  if 7 ≤ (opField w).toNat then .illegalOp
  else if lowBits w &&& reservedMask (opField w).toNat ≠ 0 then .reservedField
  else .ok (operation w)

/-- The `op` value of an operation (R62). -/
def opcode (i : Instr) : BitVec 4 :=
  match i with
  | .nop => 0x0
  | .feed _ => 0x1
  | .csum _ _ => 0x2
  | .build _ _ => 0x3
  | .valid _ => 0x4
  | .txdone _ => 0x5
  | .reset => 0x6

/-- The word of an operation: its fields in their places, every other bit zero (R61, R62, R64). -/
def encode (i : Instr) : Word :=
  match i with
  | .nop => assembleWord (opcode i) 0 false 0
  | .feed b => assembleWord (opcode i) 0 false (packList [b])
  | .csum n d => assembleWord (opcode i) n false (pack d)
  | .build h c => assembleWord (opcode i) 0 false (packList [h, c])
  | .valid f => assembleWord (opcode i) 0 false (pack f)
  | .txdone ok => assembleWord (opcode i) 0 ok 0
  | .reset => assembleWord (opcode i) 0 false 0

/-- The instruction of `nbits` bits `w` as the opcode table numbers them. A word is 64 bits, presented whole, so there
is no byte order to lay out; the bits above `nbits` are zero. -/
def decodeTableWord (nbits w : Nat) : Option Instr :=
  match decode (BitVec.ofNat 64 (w % 2 ^ nbits)) with
  | .ok i => some i
  | .illegalOp => none
  | .reservedField => none

end Sys2Proof
end

