-- ==== Sys2Proof/Machine/State.lean ====
section
/-! DEFINITION. The state of the block as plain data, the reasons a step can stop, and the state after reset. -/

namespace Sys2Proof.Machine

/-- The output record of a step that ends in `Next` (R31). A field is present only in the step whose rule emits it. -/
structure Output where
  /-- The completed-frame event (R107). -/
  frame : Option Bytes7 := none
  /-- The validator flags of `frame` (R72, R107). -/
  frameFlags : Option Flags := none
  /-- The packet submitted to the sink (R124). -/
  txReq : Option Bytes7 := none
  /-- The checksum result (R82). -/
  csum : Option Byte := none
  /-- The built packet (R91). -/
  packet : Option Bytes7 := none
  /-- The validator flags of VALID (R72, R86). -/
  flags : Option Flags := none
  /-- Transmit success or failure (R127). -/
  outcome : Option Bool := none
deriving DecidableEq, Repr

/-- The output record with no field present. -/
def Output.empty : Output := {}

/-- What the last step of the machine showed the agents (R14, R157, R179; log entries 3 and 4). -/
inductive Report where
  /-- No word was presented (log entry 2), or no step has been made yet. -/
  | noStep
  /-- `Next`: the word was consumed and the record emitted. -/
  | consumed (o : Output)
  /-- `Hold`: `w` was not consumed and must be presented again. -/
  | held (w : Word)
deriving DecidableEq, Repr

/-- The state. The first five fields are the spec's whole state (R20); the other four are the model's own: the
parameter, the input and the output of the spec's `step(cfg, s, w)` (R14), and the counter of the free values. -/
structure State where
  /-- `false` is IDLE, `true` is ACCUMULATING (R21). -/
  accumulating : Bool
  /-- Where the next accepted byte of a frame is written (R22). -/
  position : BitVec 3
  /-- The frame buffer (R23). -/
  buf : Bytes7
  /-- A transmit request waits for the sink's answer (R24). -/
  txPending : Bool
  /-- The packet of that request (R25). -/
  txPkt : Bytes7
  /-- MODEL'S OWN: `P_CHECK` and `P_FORWARD`, fixed for a run (R8, R9, R14; log entry 5). -/
  cfg : Config
  /-- MODEL'S OWN: the operation words the host and the sink present, in their one total order (R14, R50), the next
  one first (log entry 1). -/
  words : List Word
  /-- MODEL'S OWN: the outcome of the last step (log entry 4). -/
  report : Report
  /-- MODEL'S OWN: how many free values have been drawn (log entry 7). -/
  draws : Nat
deriving DecidableEq, Repr

/-- The three faults of the block, each with the offending word (R151). No other fault exists. -/
inductive Fault where
  /-- Code 1, raised by the decoder for `op` 0x7 to 0xF (R152). Safe: the spec's own fault. -/
  | illegalOp (w : Word)
  /-- Code 2, raised by the decoder for a set reserved-zero bit (R153). Safe: the spec's own fault. -/
  | reservedField (w : Word)
  /-- Code 3, raised by TXDONE while no transmit is pending (R154). Safe: the spec's own fault. -/
  | txdoneUnexpected (w : Word)
deriving DecidableEq, Repr

/-- Refusals. No meaning of this model refuses. -/
inductive Refusal where
  /-- An instruction with no meaning yet, refused in its arm of `exec`; no arm does. Safe. -/
  | notModelled (mnemonic : String)
deriving DecidableEq, Repr

/-- Seven zero bytes: the value this model names for a buffer whose reset value the spec leaves unspecified
(log entry 6: DESIGN CHOICE, unsafe). -/
def zeroBytes : Bytes7 := #v[0, 0, 0, 0, 0, 0, 0]

/-- The startup reset (R34, R170). `accumulating`, `position` and `txPending` are the spec's values; `buf` and `txPkt`
are unspecified there and hold a named value here (log entry 6); `cfg` is the default of both parameters (R8, R9). -/
def State.reset : State where
  accumulating := false
  position := 0
  buf := zeroBytes
  txPending := false
  txPkt := zeroBytes
  cfg := Config.default
  words := []
  report := .noStep
  draws := 0

end Sys2Proof.Machine
end

