-- ==== Sys2Proof/Machine/Ops.lean ====
section
/-! DEFINITION. The named operations every meaning is made of: how a step ends, the writes of the state's parts, the
free values, fetching the next word, the level outputs. The block has no trap to take and none to return from (R150):
what ends a step otherwise than by `Next` is `hold` or `raise`. -/

namespace Sys2Proof.Machine

/-- The outcome type of every step. -/
abbrev Result := Host.Outcome State Fault Refusal

/-- The code of a fault (R151). -/
def Fault.code (f : Fault) : Nat :=
  match f with
  | .illegalOp _ => 1
  | .reservedField _ => 2
  | .txdoneUnexpected _ => 3

/-- The word a fault records (R151). -/
def Fault.word (f : Fault) : Word :=
  match f with
  | .illegalOp w => w
  | .reservedField w => w
  | .txdoneUnexpected w => w

/-- Write the Framer's part of the state (R21, R22, R23). -/
def State.setFramer (s : State) (accumulating : Bool) (position : BitVec 3) (buf : Bytes7) : State :=
  { s with accumulating := accumulating, position := position, buf := buf }

/-- Write the forwarding stage's part of the state (R24, R25). -/
def State.setTx (s : State) (pending : Bool) (pkt : Bytes7) : State :=
  { s with txPending := pending, txPkt := pkt }

/-- Record the outcome of the step (log entry 4). -/
def State.setReport (s : State) (r : Report) : State := { s with report := r }

/-- Replace the presented words (log entry 1). -/
def State.setWords (s : State) (ws : List Word) : State := { s with words := ws }

/-- Count `n` more free values as drawn (log entry 7). -/
def State.countDraws (s : State) (n : Nat) : State := { s with draws := s.draws + n }

/-- Seven free bytes, from the `n`-th on: what a buffer holds once R29 leaves it unspecified (log entry 7). -/
def freeBytes (n : Nat) : Bytes7 := Vector.ofFn fun i : Fin 7 => Config.freeByte (n + i.val)

/-- `buf <- b` at index `i`; there is no byte at an index above 6 (R23, R40). -/
def writeByte (f : Bytes7) (i : Nat) (b : Byte) : Bytes7 := f.setIfInBounds i b

/-- The step ends in `Next(s', o)`: the word is consumed and `o` emitted (R13, R14). -/
def emit (o : Output) (s : State) : Result := .next (s.setReport (.consumed o))

/-- The step ends in `Hold`: no state written, nothing emitted, `w` not consumed (R157). -/
def hold (w : Word) (s : State) : Result := .next (s.setReport (.held w))

/-- The step ends in a fault, which writes no state and ends the run (R156). -/
def raise (f : Fault) : Result := .fault f

/-- The next presented word, and the state with that presentation taken (R14, R52; log entry 1). -/
def fetch (s : State) : Option (Word × State) :=
  match s.words with
  | [] => none
  | w :: ws => some (w, s.setWords ws)

/-- No word is presented: the block waits for the next one (R54, R170; log entry 2). -/
def wait (s : State) : Result := .next (s.setReport .noStep)

/-- `in_ready` (R32). -/
def inReady (s : State) : Bool := !s.txPending

/-- `tx_valid` (R33). -/
def txValid (s : State) : Bool := s.txPending

/-- `tx_data`, which has meaning only while `tx_valid` is true (R33). -/
def txData (s : State) : Bytes7 := s.txPkt

end Sys2Proof.Machine
end

