-- ==== Sys2Proof/Machine/ChecksumUnit.lean ====
section
/-! DEFINITION. The Checksum Unit and CSUM (spec/40_checksum_unit.md). -/

namespace Sys2Proof.Machine

/-- `checksum(d, n)`: the exclusive-or of the first `n` bytes, starting from 0x00 (R81). -/
def checksum (d : Bytes7) (n : Nat) : Byte := (d.toList.take n).foldl (fun acc b => acc ^^^ b) 0

/-- CSUM (R82). -/
def execCsum (n : BitVec 3) (d : Bytes7) (s : State) : Result :=
  emit { csum := some (checksum d n.toNat) } s

end Sys2Proof.Machine
end

