-- ==== Sys2Proof/Machine/Control.lean ====
section
/-! DEFINITION. NOP and RESET (spec/44_control.md). -/

namespace Sys2Proof.Machine

/-- NOP (R140). -/
def execNop (s : State) : Result := emit Output.empty s

/-- Every component at its reset value (R34): `buf` and `tx_pkt` become unspecified, so they hold free values. The
configuration stays (R141). -/
def State.resetParts (s : State) : State :=
  ((s.setFramer false 0 (freeBytes s.draws)).setTx false (freeBytes (s.draws + 7))).countDraws 14

/-- RESET (R141): a frame in progress and a pending request are abandoned, and nothing is emitted. -/
def execReset (s : State) : Result := emit Output.empty s.resetParts

end Sys2Proof.Machine
end

