-- ==== Sys2Proof/Machine/Flags.lean ====
section
/-! DEFINITION. The checksum validator's predicates and its flags. -/

namespace Sys2Proof.Machine

/-- Well-formed: byte 6 is the checksum of bytes 0 to 5 (R84). -/
def csumOk (f : Bytes7) : Bool := f[6] == checksum f 6

/-- The header check (R85). -/
def hdrOk (f : Bytes7) : Bool := f[0] == header

/-- Valid: right header and well-formed (R85). -/
def valid (f : Bytes7) : Bool := hdrOk f && csumOk f

/-- `{valid, hdr_ok, csum_ok}`, bit 2 down to bit 0 (R72). -/
def validatorFlags (f : Bytes7) : Flags :=
  BitVec.ofBool (valid f) ++ BitVec.ofBool (hdrOk f) ++ BitVec.ofBool (csumOk f)

end Sys2Proof.Machine
end

