-- ==== Sys2Proof/Machine/PacketBuilder.lean ====
section
/-! DEFINITION. The Packet Builder and BUILD (spec/41_packet_builder.md). -/

namespace Sys2Proof.Machine

/-- Bytes 0 to 5 of `f` with their checksum in byte 6. -/
def stampChecksum (f : Bytes7) : Bytes7 := writeByte f 6 (checksum f 6)

/-- `build(h, c)`: header, command, four zero bytes, checksum (R90). -/
def buildPacket (h c : Byte) : Bytes7 := stampChecksum #v[h, c, 0, 0, 0, 0, 0]

/-- BUILD (R91). -/
def execBuild (h c : Byte) (s : State) : Result :=
  emit { packet := some (buildPacket h c) } s

end Sys2Proof.Machine
end

