-- ==== Sys2Proof/Machine/Forwarding.lean ====
section
/-! DEFINITION. The forwarding stage and TXDONE (spec/43_forwarding.md). -/

namespace Sys2Proof.Machine

/-- The outbound packet of a frame under a forwarding policy (R122, R123). -/
def outboundPacket (p : ForwardPolicy) (f : Bytes7) : Bytes7 :=
  match p with
  | .commandOnly => buildPacket f[0] f[1]
  | .full => stampChecksum f

/-- What `forward(f)` submits to the sink: nothing when the checksum policy drops the frame (R120, R121). -/
def forwardedPacket (cfg : Config) (f : Bytes7) : Option Bytes7 :=
  match cfg.check, csumOk f with
  | .reject, false => none
  | _, _ => some (outboundPacket cfg.forward f)

/-- `forward(f)` and the end of the step that completed `f`, with `o` the record so far: a transmit request (R124), or
none for a dropped frame (R121). -/
def forward (f : Bytes7) (o : Output) (s : State) : Result :=
  match forwardedPacket s.cfg f with
  | none => emit o s
  | some pkt => emit { o with txReq := some pkt } (s.setTx true pkt)

/-- TXDONE (R127): the answer to the pending request; `tx_pkt` becomes unspecified (R29). With none pending, the fault
of R154, which records the word. -/
def execTxdone (ok : Bool) (s : State) : Result :=
  if s.txPending then
    emit { outcome := some ok } ((s.setTx false (freeBytes s.draws)).countDraws 7)
  else
    raise (.txdoneUnexpected (encode (.txdone ok)))

end Sys2Proof.Machine
end

