-- ==== Sys2Proof/Machine/Framer.lean ====
section
/-! DEFINITION. The Framer and FEED (spec/42_framer.md). -/

namespace Sys2Proof.Machine

/-- A byte accepted while IDLE: a header starts a frame (R102), any other byte is discarded (R103). -/
def feedIdle (b : Byte) (s : State) : Result :=
  if b = header then emit Output.empty (s.setFramer true 1 (writeByte s.buf 0 b))
  else emit Output.empty s

/-- The seventh byte: the frame is emitted with its flags (R107), the Framer is IDLE at position 0 with its buffer
unspecified (R29, R105), and the frame is forwarded (R120). -/
def completeFrame (b : Byte) (s : State) : Result :=
  let f := writeByte s.buf 6 b
  forward f { frame := some f, frameFlags := some (validatorFlags f) }
    ((s.setFramer false 0 (freeBytes s.draws)).countDraws 7)

/-- A byte accepted while ACCUMULATING, whatever its value (R106): appended (R104), or the last of its frame (R105).
A stored position 7 is ruled out by R22 and R27: there the byte has no place and the position is free (log entry 8). -/
def feedAccumulating (b : Byte) (s : State) : Result :=
  let p := s.position.toNat
  if p + 1 = frameSize then completeFrame b s
  else if p < frameSize then
    emit Output.empty (s.setFramer true (s.position + 1) (writeByte s.buf p b))
  else
    emit Output.empty ((s.setFramer true (Config.freePosition s.draws) s.buf).countDraws 1)

/-- FEED (R101): held while a transmit is pending (R111). -/
def execFeed (b : Byte) (s : State) : Result :=
  if s.txPending then hold (encode (.feed b)) s
  else if s.accumulating then feedAccumulating b s
  else feedIdle b s

end Sys2Proof.Machine
end

