-- ==== Sys2Proof/Machine/Validator.lean ====
section
/-! DEFINITION. VALID: the checksum validator run directly (spec/40_checksum_unit.md). -/

namespace Sys2Proof.Machine

/-- VALID (R86). -/
def execValid (f : Bytes7) (s : State) : Result :=
  emit { flags := some (validatorFlags f) } s

end Sys2Proof.Machine
end

