-- ==== Sys2Proof/Machine/Dispatch.lean ====
section
/-! DEFINITION. One arm per operation, each one call of its meaning. -/

namespace Sys2Proof.Machine

def exec (i : Instr) (s : State) : Host.Outcome State Fault Refusal :=
  match i with
  | .nop => Sys2Proof.Machine.execNop s
  | .feed b => Sys2Proof.Machine.execFeed b s
  | .csum n d => Sys2Proof.Machine.execCsum n d s
  | .build h c => Sys2Proof.Machine.execBuild h c s
  | .valid f => Sys2Proof.Machine.execValid f s
  | .txdone ok => Sys2Proof.Machine.execTxdone ok s
  | .reset => Sys2Proof.Machine.execReset s

end Sys2Proof.Machine
end

