-- ==== Sys2Proof/Machine/Step.lean ====
section
/-! DEFINITION. One step: take the next presented word, decode it, run it. -/

namespace Sys2Proof.Machine

/-- `step(cfg, s, w)` of R14, with `cfg` and the word stream held in the state (log entries 1 and 5). The decoder's
checks come before the operation's own rule (R66, R155). With no word presented the block waits (log entry 2). -/
def step (s : State) : Host.Outcome State Fault Refusal :=
  match fetch s with
  | none => wait s
  | some (w, s') =>
    match decode w with
    | .illegalOp => raise (.illegalOp w)
    | .reservedField => raise (.reservedField w)
    | .ok i => exec i s'

/-- `s` with the word `w` of `nbits` bits presented next, before the words already waiting (log entry 1). -/
def State.withFetchWord (s : State) (nbits w : Nat) : State :=
  s.setWords (BitVec.ofNat 64 (w % 2 ^ nbits) :: s.words)

end Sys2Proof.Machine
end

