-- ==== Sys2Proof/WellFormed.lean ====
section
/-! DEFINITION. Well-formedness of what a programmer writes. An `Instr` is well formed by its types (every operand has
its field's width), so the check stands where an operand can fall outside its field: on an assembly line (R69, R70). -/

namespace Sys2Proof

/-- The mnemonics of the assembly syntax: the seven operations (R69) and the two pseudo-operations (R70). -/
inductive Mnemonic where
  | nop
  | feed
  | csum
  | build
  | valid
  | txdone
  | reset
  | feeds
  | sendcmd
deriving DecidableEq, Repr

/-- One line of assembly: a mnemonic and its operands as numbers of any size (R69). -/
structure AsmLine where
  mnemonic : Mnemonic
  operands : List Nat
deriving DecidableEq, Repr

/-- Every operand is a byte: none is above 0xFF. -/
def allBytes (ns : List Nat) : Bool := ns.all fun n => n ≤ 0xFF

/-- The line that an assembler accepts (R69, R70): the operand count of its form, every byte at most 0xFF, `n` at most 7,
`ok` 0 or 1. -/
def AsmLine.wellFormed (l : AsmLine) : Bool :=
  match l.mnemonic, l.operands with
  | .nop, ns => ns.isEmpty
  | .feed, ns => ns.length == 1 && allBytes ns
  | .csum, [] => false
  | .csum, n :: bs => n ≤ 7 && bs.length == n && allBytes bs
  | .build, ns => ns.length == 2 && allBytes ns
  | .valid, ns => ns.length == 7 && allBytes ns
  | .txdone, ns => ns.length == 1 && ns.all fun n => n ≤ 1
  | .reset, ns => ns.isEmpty
  | .feeds, ns => !ns.isEmpty && allBytes ns
  | .sendcmd, ns => ns.length == 1 && allBytes ns

end Sys2Proof
end

