-- ==== Sys2Proof/Machine/Assembler.lean ====
section
/-! DEFINITION. The assembly syntax (R69) and the two pseudo-operations (R70): from text to operation words. -/

namespace Sys2Proof.Machine

/-- A number that is known to fit a byte. -/
def asByte (n : Nat) : Byte := BitVec.ofNat 8 n

/-- Seven lanes from the first numbers of a list, zero where it has none (R69, the CSUM row). -/
def asLanes (ns : List Nat) : Bytes7 := Vector.ofFn fun i : Fin 7 => asByte (ns.getD i.val 0)

/-- The bytes of one well-formed, valid frame that carries command `c` (R70). -/
def sendcmdBytes (c : Byte) : List Byte := [0xAA, c, 0x00, 0x00, 0x00, 0x00, 0xAA ^^^ c]

/-- The operations of a line whose operands are in their fields (R69, R70). -/
def expandLine (l : AsmLine) : List Instr :=
  match l.mnemonic with
  | .nop => [.nop]
  | .feed => [.feed (asByte (l.operands.getD 0 0))]
  | .csum => [.csum (BitVec.ofNat 3 (l.operands.getD 0 0)) (asLanes l.operands.tail)]
  | .build => [.build (asByte (l.operands.getD 0 0)) (asByte (l.operands.getD 1 0))]
  | .valid => [.valid (asLanes l.operands)]
  | .txdone => [.txdone (l.operands.getD 0 0 == 1)]
  | .reset => [.reset]
  | .feeds => l.operands.map fun n => .feed (asByte n)
  | .sendcmd => (sendcmdBytes (asByte (l.operands.getD 0 0))).map .feed

/-- Assemble a line, or refuse it: any operand outside its field, or a wrong operand count (R69). -/
def assembleLine (l : AsmLine) : Option (List Instr) :=
  if l.wellFormed then some (expandLine l) else none

/-- A character between tokens (log entry 10). -/
def isBlank (c : Char) : Bool := c == ' ' || c == '\t' || c == '\r'

/-- Text without the blanks around it. -/
def trimBlanks (cs : List Char) : List Char :=
  (((cs.dropWhile isBlank).reverse).dropWhile isBlank).reverse

/-- Text cut at its commas: operands are separated by commas (R69). -/
def splitCommas : List Char → List (List Char)
  | [] => [[]]
  | c :: cs =>
    if c = ',' then [] :: splitCommas cs
    else
      match splitCommas cs with
      | [] => [[c]]
      | x :: xs => (c :: x) :: xs

/-- The value of a digit, in either case above 9 (log entry 10). -/
def digitValue (c : Char) : Option Nat :=
  let n := c.toNat
  if 48 ≤ n ∧ n ≤ 57 then some (n - 48)
  else if 65 ≤ n ∧ n ≤ 70 then some (n - 55)
  else if 97 ≤ n ∧ n ≤ 102 then some (n - 87)
  else none

/-- Digits of a base read after the value `acc`. -/
def readDigits (base acc : Nat) : List Char → Option Nat
  | [] => some acc
  | c :: cs =>
    match digitValue c with
    | none => none
    | some d => if d < base then readDigits base (base * acc + d) cs else none

/-- A number: hexadecimal with `0x`, or decimal (R69). -/
def readNumber (cs : List Char) : Option Nat :=
  match cs with
  | [] => none
  | '0' :: 'x' :: [] => none
  | '0' :: 'x' :: ds => readDigits 16 0 ds
  | ds => readDigits 10 0 ds

/-- The operands, every one of which must be a number. -/
def readOperands : List (List Char) → Option (List Nat)
  | [] => some []
  | t :: ts =>
    match readNumber (trimBlanks t), readOperands ts with
    | some n, some ns => some (n :: ns)
    | _, _ => none

/-- The mnemonics as they are written: in upper case (R69, R70). -/
def mnemonicTable : List (List Char × Mnemonic) :=
  [("NOP".toList, .nop), ("FEED".toList, .feed), ("CSUM".toList, .csum), ("BUILD".toList, .build),
   ("VALID".toList, .valid), ("TXDONE".toList, .txdone), ("RESET".toList, .reset),
   ("FEEDS".toList, .feeds), ("SENDCMD".toList, .sendcmd)]

/-- The mnemonic a token spells. -/
def readMnemonic (cs : List Char) : Option Mnemonic :=
  (mnemonicTable.find? fun row => row.1 == cs).map Prod.snd

/-- One line of text with its comment dropped: no operation on an empty line, or a mnemonic and its operands; `none` where the
text is neither (R69). -/
def parseLine (text : List Char) : Option (Option AsmLine) :=
  let t := trimBlanks (text.takeWhile fun c => c != ';')
  if t.isEmpty then some none
  else
    let name := t.takeWhile fun c => !isBlank c
    let rest := trimBlanks (t.dropWhile fun c => !isBlank c)
    match readMnemonic name, (if rest.isEmpty then some [] else readOperands (splitCommas rest)) with
    | some m, some ns => some (some { mnemonic := m, operands := ns })
    | _, _ => none

/-- The operations of one line of text; `none` where the assembler refuses it. -/
def assembleText (text : List Char) : Option (List Instr) :=
  match parseLine text with
  | none => none
  | some none => some []
  | some (some l) => assembleLine l

/-- The operation words of a program, line by line in order (R69, R70). -/
def assembleProgram : List (List Char) → Option (List Word)
  | [] => some []
  | t :: ts =>
    match assembleText t, assembleProgram ts with
    | some is, some ws => some (is.map encode ++ ws)
    | _, _ => none

end Sys2Proof.Machine
end

