-- ==== Sys2Proof/Safety.lean ====
section
/-! DEFINITION. The terms the claims use: the invariants between steps, the contracts of host and sink, what a run shows, and
the reading of a byte stream as frames. -/

namespace Sys2Proof.Machine

/-- The Framer's invariant between steps (R26, R27, R28). -/
abbrev State.Inv (s : State) : Prop :=
  (s.accumulating = false → s.position = 0) ∧
  (s.accumulating = true → 1 ≤ s.position.toNat ∧ s.position.toNat ≤ 6 ∧ s.buf[0] = 0xAA) ∧
  (s.txPending = true → s.accumulating = false ∧ s.position = 0)

/-- While a request is pending, the packet at the sink is valid (R33, R126). -/
abbrev State.PendingValid (s : State) : Prop := s.txPending = true → valid s.txPkt = true

/-- Two states that differ at most in the bytes R29 leaves unspecified (and in how many free values were drawn). -/
def State.SameSpecified (s t : State) : Prop :=
  s.accumulating = t.accumulating ∧ s.position = t.position ∧ s.txPending = t.txPending ∧ s.cfg = t.cfg ∧
  s.words = t.words ∧ s.report = t.report ∧
  (∀ i : Fin 7, i.val < s.position.toNat → s.buf[i] = t.buf[i]) ∧
  (s.txPending = true → s.txPkt = t.txPkt)

/-- The same outcome up to the bytes R29 leaves unspecified. -/
def SameOutcome (a b : Result) : Prop :=
  match a, b with
  | .next s, .next t => s.SameSpecified t
  | .fault f, .fault g => f = g
  | _, _ => False

/-- The agents that present words (R161). -/
inductive Agent where
  | host
  | sink
deriving DecidableEq, Repr

/-- Which agent presents an operation, by contract (R62, R161). The block does not check it (R160). -/
def agentOf (i : Instr) : Agent :=
  match i with
  | .nop | .feed _ | .csum _ _ | .build _ _ | .valid _ | .reset => .host
  | .txdone _ => .sink

/-- The contract lets an agent present `w` in `s`: an operation of the table (R161), and a sink's answer only to a
pending request (R129, R161). -/
def contractAllows (s : State) (w : Word) : Bool :=
  match decode w with
  | .ok i => agentOf i == .host || s.txPending
  | .illegalOp => false
  | .reservedField => false

/-- The first `k` presentations of the run from `s` all keep the contract. -/
def respectsContract : Nat → State → Bool
  | 0, _ => true
  | k + 1, s =>
    match s.words with
    | [] => true
    | w :: _ =>
      contractAllows s w &&
        match step s with
        | .next t => respectsContract k t
        | .fault _ => true
        | .refused _ => true

/-- One presentation of a run: the word with what its step showed, or the fault that ended the run (R179). -/
inductive Event where
  | shown (w : Word) (r : Report)
  | faulted (f : Fault)
deriving DecidableEq, Repr

/-- The observation of the first `k` presentations of the run from `s`: the sequence of step outcomes, with at most one
fault, at its end (R179). It ends early where no word is left. -/
def observe : Nat → State → List Event
  | 0, _ => []
  | k + 1, s =>
    match s.words with
    | [] => []
    | w :: _ =>
      match step s with
      | .next t => .shown w t.report :: observe k t
      | .fault f => [.faulted f]
      | .refused _ => []

/-- The final state of that run: after a fault, the state before the faulting word (R156, R179). -/
def finalState : Nat → State → State
  | 0, s => s
  | k + 1, s =>
    match s.words with
    | [] => s
    | _ :: _ =>
      match step s with
      | .next t => finalState k t
      | .fault _ => s
      | .refused _ => s

/-- The output record an event shows, if its word was consumed. -/
def Event.output (e : Event) : Option Output :=
  match e with
  | .shown _ (.consumed o) => some o
  | .shown _ (.held _) => none
  | .shown _ .noStep => none
  | .faulted _ => none

/-- The byte an event gave the Framer: the operand of a consumed FEED (R47). -/
def Event.acceptedByte (e : Event) : Option Byte :=
  match e with
  | .shown w (.consumed _) =>
    match decode w with
    | .ok (.feed b) => some b
    | _ => none
  | _ => none

/-- A consumed RESET. -/
def Event.isReset (e : Event) : Bool :=
  match e with
  | .shown w _ => decode w == .ok .reset
  | .faulted _ => false

/-- The completed frames of an observation, in order (R107). -/
def framesOf (es : List Event) : List Bytes7 := es.filterMap fun e => e.output.bind Output.frame

/-- The transmit requests of an observation, in order (R124). -/
def requestsOf (es : List Event) : List Bytes7 := es.filterMap fun e => e.output.bind Output.txReq

/-- The transmit outcomes of an observation, in order (R127). -/
def outcomesOf (es : List Event) : List Bool := es.filterMap fun e => e.output.bind Output.outcome

/-- The accepted bytes of an observation, in order. -/
def acceptedOf (es : List Event) : List Byte := es.filterMap Event.acceptedByte

/-- R115 without any machine: a stream of accepted bytes cut into whole frames of 7 that begin with a header, with each
non-header byte between frames discarded; the second part is the partial frame at the end. `p` is the partial frame
at the start. -/
def cutFrames : List Byte → List Byte → List (List Byte) × List Byte
  | p, [] => ([], p)
  | p, b :: bs =>
    if p = [] then
      if b = header then cutFrames [b] bs else cutFrames [] bs
    else if p.length + 1 = frameSize then
      ((p ++ [b]) :: (cutFrames [] bs).1, (cutFrames [] bs).2)
    else cutFrames (p ++ [b]) bs

/-- The bytes of the frame in progress: `buf[i]` for `i < position` (R23). -/
def State.partialFrame (s : State) : List Byte := s.buf.toList.take s.position.toNat

end Sys2Proof.Machine
end

