-- ==== Sys2Proof/Certificates/Slice0/Obligations.lean ====
section
/-! DEFINITION. The statements for the provers, in the order of spec/: encoding and decoder, faults, the step, the units,
the Framer, the forwarding stage, control, whole-machine rules, runs, the assembler. -/

open Sys2Proof Sys2Proof.Machine

/-! ### Encoding and decoder (spec/30_encoding.md) -/

/-- R61, R62, R64 to R66: no operand bit of any operation is dropped or moved between its word and its decoding. -/
def Obligations.DecodeOfEncodeIsTheInstruction : Prop := ∀ i : Instr, decode (encode i) = .ok i

/-- R66, R71: an accepted word is the one word of the operation it decodes to. -/
def Obligations.EncodeOfDecodeIsTheWord : Prop := ∀ (w : Word) (i : Instr), decode w = .ok i → encode i = w

/-- R64, R66, R71: the two checks in their order, with the masks of R64's table, decide every word. -/
def Obligations.DecoderClassifiesEveryWord : Prop :=
  ∀ w : Word,
    let op := w.toNat / 2 ^ 60
    let reserved := w.toNat % 2 ^ 60 &&&
      [0x0FFFFFFFFFFFFFFF, 0x0FFFFFFFFFFFFF00, 0x0100000000000000, 0x0FFFFFFFFFFF0000, 0x0F00000000000000,
        0x0EFFFFFFFFFFFFFF, 0x0FFFFFFFFFFFFFFF].getD op 0
    (7 ≤ op → decode w = .illegalOp) ∧
    (op < 7 → reserved ≠ 0 → decode w = .reservedField) ∧
    (op < 7 → reserved = 0 → ∃ i : Instr, decode w = .ok i ∧ (opcode i).toNat = op)

/-- R61, R62, R69: a word of each operation, written out from the spec's fields and examples. -/
def Obligations.DecodeSampleWords : Prop :=
  decode 0x0000000000000000 = .ok .nop ∧
  decode 0x10000000000000AA = .ok (.feed 0xAA) ∧
  decode 0x2C000000000005AA = .ok (.csum 6 #v[0xAA, 0x05, 0, 0, 0, 0, 0]) ∧
  decode 0x30000000000005AA = .ok (.build 0xAA 0x05) ∧
  decode 0x40AF0000000005AA = .ok (.valid #v[0xAA, 0x05, 0, 0, 0, 0, 0xAF]) ∧
  decode 0x5100000000000000 = .ok (.txdone true) ∧
  decode 0x6000000000000000 = .ok .reset

/-- R65: every operand is its field of the word as it stands. -/
def Obligations.OperandsAreTheFieldsAsTheyStand : Prop :=
  ∀ (w : Word) (i : Instr), decode w = .ok i →
    match i with
    | .nop => True
    | .feed b => b = w.extractLsb 7 0
    | .csum n d => n = w.extractLsb 59 57 ∧ ∀ k : Fin 7, d[k] = w.extractLsb' (8 * k.val) 8
    | .build h c => h = w.extractLsb 7 0 ∧ c = w.extractLsb 15 8
    | .valid f => ∀ k : Fin 7, f[k] = w.extractLsb' (8 * k.val) 8
    | .txdone ok => ok = w.getLsbD 56
    | .reset => True

/-- R61, R62: the word of each operation as the sum of its shifted fields. -/
def Obligations.EncodedWordIsTheSumOfItsFields : Prop :=
  let lanes := fun d : Bytes7 => d[0].toNat + d[1].toNat * 2 ^ 8 + d[2].toNat * 2 ^ 16 + d[3].toNat * 2 ^ 24 +
    d[4].toNat * 2 ^ 32 + d[5].toNat * 2 ^ 40 + d[6].toNat * 2 ^ 48
  (encode .nop).toNat = 0 ∧
  (∀ b : Byte, (encode (.feed b)).toNat = 1 * 2 ^ 60 + b.toNat) ∧
  (∀ (n : BitVec 3) (d : Bytes7), (encode (.csum n d)).toNat = 2 * 2 ^ 60 + n.toNat * 2 ^ 57 + lanes d) ∧
  (∀ h c : Byte, (encode (.build h c)).toNat = 3 * 2 ^ 60 + h.toNat + c.toNat * 2 ^ 8) ∧
  (∀ f : Bytes7, (encode (.valid f)).toNat = 4 * 2 ^ 60 + lanes f) ∧
  (∀ ok : Bool, (encode (.txdone ok)).toNat = 5 * 2 ^ 60 + ok.toNat * 2 ^ 56) ∧
  (encode .reset).toNat = 6 * 2 ^ 60

/-- R44: byte `i` of a 7-byte sequence is at bits `[8i+7 : 8i]` of its 56-bit vector, and the vector is nothing more. -/
def Obligations.PortLanesAreInOffsetOrder : Prop :=
  (∀ (f : Bytes7) (i : Fin 7), (pack f).extractLsb' (8 * i.val) 8 = f[i]) ∧
  (∀ d : BitVec 56, pack (unpack d) = d)

/-! ### The step (spec/00_scope.md, spec/20_memory.md) -/

/-- R14, R66: where the next presented word decodes to `i`, the step is the meaning of `i` in the state with that
presentation taken (log entry 1: the words are held in the state). -/
def Obligations.StepRunsTheDecodedInstruction : Prop :=
  ∀ (s : State) (w : Word) (ws : List Word) (i : Instr), s.words = w :: ws → decode w = .ok i →
    step s = exec i { s with words := ws }

/-- The model's choice (log entry 2; R54: the block waits for the next operation word): with no word presented nothing
changes but the report. -/
def Obligations.StepWaitsForAWord : Prop :=
  ∀ s : State, s.words = [] → step s = .next { s with report := .noStep }

/-! ### Faults (spec/60_exceptions.md) -/

/-- R63, R152: code 1, for every other bit of the word and in every state. -/
def Obligations.ReservedOpFaults : Prop :=
  ∀ (s : State) (w : Word) (ws : List Word), s.words = w :: ws → 7 ≤ w.toNat / 2 ^ 60 →
    step s = .fault (.illegalOp w) ∧ (Fault.illegalOp w).code = 1 ∧ (Fault.illegalOp w).word = w

/-- R153: code 2, before the operation's own rule, so in every state, a pending transmit included. -/
def Obligations.ReservedFieldFaults : Prop :=
  ∀ (s : State) (w : Word) (ws : List Word), s.words = w :: ws → w.toNat / 2 ^ 60 ≤ 6 →
    w.toNat % 2 ^ 60 &&&
      [0x0FFFFFFFFFFFFFFF, 0x0FFFFFFFFFFFFF00, 0x0100000000000000, 0x0FFFFFFFFFFF0000, 0x0F00000000000000,
        0x0EFFFFFFFFFFFFFF, 0x0FFFFFFFFFFFFFFF].getD (w.toNat / 2 ^ 60) 0 ≠ 0 →
    step s = .fault (.reservedField w) ∧ (Fault.reservedField w).code = 2 ∧ (Fault.reservedField w).word = w

/-- R151, R154: code 3, recording the word. The meaning has the operation and not the word, so the recorded word is the
model's inference (log entry 9, DEDUCED): the encoding of the operation. -/
def Obligations.UnexpectedTxdoneFaults : Prop :=
  ∀ (ok : Bool) (s : State), s.txPending = false →
    exec (.txdone ok) s = .fault (.txdoneUnexpected (encode (.txdone ok))) ∧
    (Fault.txdoneUnexpected (encode (.txdone ok))).code = 3 ∧
    (Fault.txdoneUnexpected (encode (.txdone ok))).word = encode (.txdone ok)

/-- R151, R155: the three faults, when each is raised, with their codes and the word they record, and no other; and nothing is
refused. -/
def Obligations.FaultsAreExactlyTheThree : Prop :=
  (∀ (s : State) (f : Fault), step s = .fault f ↔
    ∃ (w : Word) (ws : List Word), s.words = w :: ws ∧
      ((decode w = .illegalOp ∧ f = .illegalOp w) ∨ (decode w = .reservedField ∧ f = .reservedField w) ∨
        (∃ ok : Bool, decode w = .ok (.txdone ok) ∧ s.txPending = false ∧ f = .txdoneUnexpected w))) ∧
  (∀ w : Word, (Fault.illegalOp w).code = 1 ∧ (Fault.illegalOp w).word = w ∧
    (Fault.reservedField w).code = 2 ∧ (Fault.reservedField w).word = w ∧
    (Fault.txdoneUnexpected w).code = 3 ∧ (Fault.txdoneUnexpected w).word = w) ∧
  (∀ (s : State) (r : Refusal), step s ≠ .refused r)

/-- R156, R161: a run in which host and sink keep the contract never faults. -/
def Obligations.ContractKeepingRunsNeverFault : Prop :=
  ∀ (k : Nat) (s : State), respectsContract k s = true → ∀ (e : Event) (f : Fault), e ∈ observe k s → e ≠ .faulted f

/-! ### Checksum Unit and validator (spec/40_checksum_unit.md) -/

/-- R81: the accumulator starts at 0x00, takes one byte a turn, and reads no byte at or above `n`. -/
def Obligations.ChecksumAccumulatesByteByByte : Prop :=
  (∀ d : Bytes7, checksum d 0 = 0) ∧
  (∀ (d : Bytes7) (i : Fin 7), checksum d (i.val + 1) = checksum d i.val ^^^ d[i]) ∧
  (∀ (d e : Bytes7) (n : Nat), n ≤ 7 → (∀ i : Fin 7, i.val < n → d[i] = e[i]) → checksum d n = checksum e n)

/-- R83: order independence, concatenation, and length 6. -/
def Obligations.ChecksumLaws : Prop :=
  (∀ (d e : Bytes7) (n : Nat), n ≤ 7 → (d.toList.take n).Perm (e.toList.take n) → checksum d n = checksum e n) ∧
  (∀ (d a b : Bytes7) (j n : Nat), j ≤ n → n ≤ 7 → a.toList.take j ++ b.toList.take (n - j) = d.toList.take n →
    checksum a j ^^^ checksum b (n - j) = checksum d n) ∧
  (∀ d : Bytes7, checksum d 6 = d[0] ^^^ d[1] ^^^ d[2] ^^^ d[3] ^^^ d[4] ^^^ d[5])

/-- R84: the checksum check, in both of the forms the rule gives. -/
def Obligations.WellFormedMeansTheBytesCancel : Prop :=
  ∀ f : Bytes7,
    (csumOk f = true ↔ f[6] = f[0] ^^^ f[1] ^^^ f[2] ^^^ f[3] ^^^ f[4] ^^^ f[5]) ∧
    (csumOk f = true ↔ checksum f 7 = 0x00)

/-- R82: CSUM emits the exclusive-or of its first `n` lanes, in every state, and changes nothing else. -/
def Obligations.CsumEmitsTheChecksum : Prop :=
  ∀ (n : BitVec 3) (d : Bytes7) (s : State),
    exec (.csum n d) s = .next { s with
      report := .consumed { csum := some ((List.range n.toNat).foldl (fun acc i => acc ^^^ d.toList.getD i 0) 0) } }

/-- R72, R85, R86: VALID emits the three flags of its frame, in every state, and changes nothing else. -/
def Obligations.ValidEmitsTheFlags : Prop :=
  ∀ (f : Bytes7) (s : State), ∃ flags : Flags,
    exec (.valid f) s = .next { s with report := .consumed { flags := some flags } } ∧
    (flags.getLsbD 0 = true ↔ f[6] = f[0] ^^^ f[1] ^^^ f[2] ^^^ f[3] ^^^ f[4] ^^^ f[5]) ∧
    (flags.getLsbD 1 = true ↔ f[0] = 0xAA) ∧
    (flags.getLsbD 2 = true ↔ flags.getLsbD 0 = true ∧ flags.getLsbD 1 = true)

/-! ### Packet Builder (spec/41_packet_builder.md) -/

/-- R90, R91: BUILD emits the fixed-layout packet, in every state and for every header, and changes nothing else. -/
def Obligations.BuildEmitsThePacket : Prop :=
  ∀ (h c : Byte) (s : State),
    exec (.build h c) s = .next { s with
      report := .consumed { packet := some #v[h, c, 0x00, 0x00, 0x00, 0x00, checksum #v[h, c, 0, 0, 0, 0, 0] 6] } }

/-- R92: every built packet is well-formed, with bytes 2 to 5 zero. -/
def Obligations.BuiltPacketsAreWellFormed : Prop :=
  ∀ h c : Byte, csumOk (buildPacket h c) = true ∧
    (buildPacket h c)[2] = 0x00 ∧ (buildPacket h c)[3] = 0x00 ∧ (buildPacket h c)[4] = 0x00 ∧ (buildPacket h c)[5] = 0x00

/-! ### Framer (spec/42_framer.md) -/

/-- R102: a header byte accepted while IDLE starts a frame; bytes 1 to 6 keep what they held. -/
def Obligations.FeedHeaderStartsAFrame : Prop :=
  ∀ s : State, s.txPending = false → s.accumulating = false →
    exec (.feed 0xAA) s = .next { s with
      accumulating := true, position := 1,
      buf := #v[0xAA, s.buf[1], s.buf[2], s.buf[3], s.buf[4], s.buf[5], s.buf[6]], report := .consumed {} }

/-- R103: any other byte accepted while IDLE is consumed and changes nothing. -/
def Obligations.FeedOtherByteIsDiscarded : Prop :=
  ∀ (b : Byte) (s : State), s.txPending = false → s.accumulating = false → b ≠ 0xAA →
    exec (.feed b) s = .next { s with report := .consumed {} }

/-- R104, R106: a byte accepted at positions 1 to 5 is appended, 0xAA like any other. -/
def Obligations.FeedAppendsWhileAccumulating : Prop :=
  ∀ (b : Byte) (s : State), s.txPending = false → s.accumulating = true →
    1 ≤ s.position.toNat → s.position.toNat ≤ 5 →
    exec (.feed b) s = .next { s with
      position := s.position + 1, buf := s.buf.setIfInBounds s.position.toNat b, report := .consumed {} }

/-- R105, R107: the byte accepted at position 6, whatever its value, completes the frame: it is emitted with its flags, and the
Framer is IDLE at position 0. What is left in `buf` is unspecified (R29) and not said. -/
def Obligations.SeventhByteCompletesTheFrame : Prop :=
  ∀ (b : Byte) (s : State), s.txPending = false → s.accumulating = true → s.position = 6 →
    ∃ (t : State) (o : Output) (flags : Flags),
      exec (.feed b) s = .next t ∧ t.report = .consumed o ∧
      t.accumulating = false ∧ t.position = 0 ∧ t.cfg = s.cfg ∧ t.words = s.words ∧
      o.frame = some #v[s.buf[0], s.buf[1], s.buf[2], s.buf[3], s.buf[4], s.buf[5], b] ∧
      o.frameFlags = some flags ∧
      (flags.getLsbD 0 = true ↔ b = s.buf[0] ^^^ s.buf[1] ^^^ s.buf[2] ^^^ s.buf[3] ^^^ s.buf[4] ^^^ s.buf[5]) ∧
      (flags.getLsbD 1 = true ↔ s.buf[0] = 0xAA) ∧
      (flags.getLsbD 2 = true ↔ flags.getLsbD 0 = true ∧ flags.getLsbD 1 = true) ∧
      o.csum = none ∧ o.packet = none ∧ o.flags = none ∧ o.outcome = none

/-- R121: whether the completed frame is forwarded. Under IGNORE always; under REJECT exactly when its checksum byte is
right. A forwarded frame leaves a request pending with the packet that was emitted; a dropped one leaves the forwarding
stage alone. Either way the Framer is IDLE. -/
def Obligations.ChecksumPolicyDecidesTheRequest : Prop :=
  ∀ (b : Byte) (s : State), s.txPending = false → s.accumulating = true → s.position = 6 →
    ∃ (t : State) (o : Output), exec (.feed b) s = .next t ∧ t.report = .consumed o ∧
      t.accumulating = false ∧ t.position = 0 ∧
      if s.cfg.check = .reject ∧ b ≠ s.buf[0] ^^^ s.buf[1] ^^^ s.buf[2] ^^^ s.buf[3] ^^^ s.buf[4] ^^^ s.buf[5] then
        o.txReq = none ∧ t.txPending = false ∧ t.txPkt = s.txPkt
      else o.txReq = some t.txPkt ∧ t.txPending = true

/-- R122: under COMMAND_ONLY the request carries header and command only, with a fresh checksum. -/
def Obligations.CommandOnlyForwardsTheCommand : Prop :=
  ∀ (b : Byte) (s : State), s.txPending = false → s.accumulating = true → s.position = 6 →
    s.cfg.forward = .commandOnly → s.cfg.check = .ignore →
    ∃ t : State, exec (.feed b) s = .next t ∧ t.txPending = true ∧
      t.txPkt = #v[s.buf[0], s.buf[1], 0x00, 0x00, 0x00, 0x00, s.buf[0] ^^^ s.buf[1]]

/-- R123: under FULL the request carries received bytes 0 to 5, with a fresh checksum. -/
def Obligations.FullForwardsThePayload : Prop :=
  ∀ (b : Byte) (s : State), s.txPending = false → s.accumulating = true → s.position = 6 →
    s.cfg.forward = .full → s.cfg.check = .ignore →
    ∃ t : State, exec (.feed b) s = .next t ∧ t.txPending = true ∧
      t.txPkt = #v[s.buf[0], s.buf[1], s.buf[2], s.buf[3], s.buf[4], s.buf[5],
        s.buf[0] ^^^ s.buf[1] ^^^ s.buf[2] ^^^ s.buf[3] ^^^ s.buf[4] ^^^ s.buf[5]]

/-- R87, R121: with the default policies nothing but the frame event of the completing step depends on the inbound checksum
byte. That the two states agree in `buf` as well does not follow from these rules: R101 writes the byte to `buf[6]`, R29 leaves
`buf` unspecified once the frame is complete, and the model holds the same free bytes there in both (log entry 7, DESIGN
CHOICE). -/
def Obligations.InboundChecksumByteIsIgnoredByDefault : Prop :=
  ∀ (b c : Byte) (s : State), s.cfg = { check := .ignore, forward := .commandOnly } →
    s.txPending = false → s.accumulating = true → s.position = 6 →
    ∃ (t u : State) (o p : Output), exec (.feed b) s = .next t ∧ exec (.feed c) s = .next u ∧
      t.report = .consumed o ∧ u.report = .consumed p ∧ { u with report := t.report } = t ∧
      { p with frame := o.frame, frameFlags := o.frameFlags } = o

/-- R111: while a transmit is pending, FEED is held with nothing written, and only TXDONE and RESET lift the hold. That a hold
is a next state whose report names the held word is the model's choice (log entry 3, DESIGN CHOICE), and that this word is
the encoding of the FEED is its inference (log entry 9, DEDUCED). -/
def Obligations.FeedIsHeldWhilePending : Prop :=
  ∀ (b : Byte) (s : State), s.txPending = true →
    exec (.feed b) s = .next { s with report := .held (encode (.feed b)) } ∧
    ∀ (i : Instr) (t : State), exec i s = .next t → t.txPending = false → i = .reset ∨ ∃ ok : Bool, i = .txdone ok

/-- R32, R109: every byte is accepted or held, in every state, and `in_ready` says which. That a hold is a next state whose
report names the held word is the model's choice (log entry 3, DESIGN CHOICE), and that this word is the encoding of the FEED
is its inference (log entry 9, DEDUCED). -/
def Obligations.FramerNeverFails : Prop :=
  ∀ (b : Byte) (s : State), inReady s = !s.txPending ∧
    ∃ t : State, exec (.feed b) s = .next t ∧
      (inReady s = true → ∃ o : Output, t.report = .consumed o) ∧
      (inReady s = false → t.report = .held (encode (.feed b)))

/-- R157: the only hold is FEED while a transmit is pending, it writes no state, and only TXDONE or RESET ends it. That a hold
is a next state whose report names the held word is the model's choice (log entry 3, DESIGN CHOICE), and that this word is
the encoding of the FEED is its inference (log entry 9, DEDUCED). -/
def Obligations.HoldIsFeedAloneAndEndsByTxdoneOrReset : Prop :=
  ∀ (i : Instr) (s t : State), exec i s = .next t →
    (∀ w : Word, t.report = .held w ↔ (∃ b : Byte, i = .feed b) ∧ s.txPending = true ∧ w = encode i) ∧
    (∀ w : Word, t.report = .held w → t = { s with report := .held w }) ∧
    (s.txPending = true → t.txPending = false → i = .reset ∨ ∃ ok : Bool, i = .txdone ok)

/-- R111, R157: a held byte presented again after TXDONE or RESET is accepted. -/
def Obligations.HeldByteIsAcceptedAfterTheAnswer : Prop :=
  ∀ (b : Byte) (ok : Bool) (s : State), s.txPending = true → ∀ i ∈ [Instr.txdone ok, Instr.reset],
    ∃ (t u : State) (o : Output), exec i s = .next t ∧ exec (.feed b) t = .next u ∧ u.report = .consumed o

/-- R100: the Framer's state changes only on an accepted FEED and on RESET. -/
def Obligations.OnlyFeedAndResetMoveTheFramer : Prop :=
  ∀ (i : Instr) (s t : State), exec i s = .next t →
    i = .reset ∨ (s.txPending = false ∧ ∃ b : Byte, i = .feed b) ∨
      (t.accumulating = s.accumulating ∧ t.position = s.position ∧ t.buf = s.buf)

/-! ### Forwarding stage (spec/43_forwarding.md) -/

/-- R127: TXDONE ends the pending transmit and emits the answer. What is left in `tx_pkt` is unspecified (R29). -/
def Obligations.TxdoneEndsTheTransmit : Prop :=
  ∀ (ok : Bool) (s : State), s.txPending = true →
    ∃ (pkt : Bytes7) (n : Nat), exec (.txdone ok) s = .next { s with
      txPending := false, txPkt := pkt, draws := n, report := .consumed { outcome := some ok } }

/-- R128: a failed transmit leaves the state a successful one leaves; only the outcome differs. That the two states agree in
`tx_pkt` as well, which R29 leaves unspecified, rests on the same free bytes being held there in both (log entry 7, DESIGN
CHOICE). -/
def Obligations.FailureLeavesTheStateOfSuccess : Prop :=
  ∀ s : State, s.txPending = true → ∃ t u : State,
    exec (.txdone true) s = .next t ∧ exec (.txdone false) s = .next u ∧ { u with report := t.report } = t ∧
    t.report = .consumed { outcome := some true } ∧ u.report = .consumed { outcome := some false }

/-- R24, R25, R33, R124: what `tx_valid` and `tx_data` are; a request shows at once as valid data; and a pending packet stays as
it is until TXDONE or RESET. -/
def Obligations.PendingPacketIsPresentedUnchanged : Prop :=
  (∀ s : State, txValid s = s.txPending ∧ txData s = s.txPkt) ∧
  (∀ (i : Instr) (s t : State) (o : Output) (pkt : Bytes7), exec i s = .next t → t.report = .consumed o →
    o.txReq = some pkt → txValid t = true ∧ txData t = pkt) ∧
  (∀ (i : Instr) (s t : State), exec i s = .next t → s.txPending = true →
    (t.txPending = true ∧ t.txPkt = s.txPkt) ∨ i = .reset ∨ ∃ ok : Bool, i = .txdone ok)

/-- R24, R25: the forwarding stage's state changes only by a completing FEED, TXDONE and RESET. -/
def Obligations.OnlyThreeEventsMoveTheForwardingStage : Prop :=
  ∀ (i : Instr) (s t : State), exec i s = .next t →
    i = .reset ∨ (∃ ok : Bool, i = .txdone ok) ∨
      (s.txPending = false ∧ s.accumulating = true ∧ s.position = 6 ∧ ∃ b : Byte, i = .feed b) ∨
      (t.txPending = s.txPending ∧ t.txPkt = s.txPkt)

/-- R126: every packet a step submits is valid, and bytes 2 to 5 are zero under COMMAND_ONLY. -/
def Obligations.EveryRequestedPacketIsValid : Prop :=
  ∀ (s t : State) (o : Output) (pkt : Bytes7), s.Inv → step s = .next t → t.report = .consumed o → o.txReq = some pkt →
    pkt[0] = 0xAA ∧ pkt[6] = pkt[0] ^^^ pkt[1] ^^^ pkt[2] ^^^ pkt[3] ^^^ pkt[4] ^^^ pkt[5] ∧
    (s.cfg.forward = .commandOnly → pkt[2] = 0x00 ∧ pkt[3] = 0x00 ∧ pkt[4] = 0x00 ∧ pkt[5] = 0x00)

/-- R33, R126: the packet at the sink is valid for as long as the request is pending. -/
def Obligations.PendingPacketStaysValid : Prop :=
  State.reset.PendingValid ∧
  ∀ s t : State, s.Inv → s.PendingValid → step s = .next t → t.PendingValid

/-! ### Control and reset (spec/44_control.md, spec/10_state.md, spec/70_reset_and_hazards.md) -/

/-- R140: NOP changes nothing and emits nothing, in every state. -/
def Obligations.NopChangesNothing : Prop :=
  ∀ s : State, exec .nop s = .next { s with report := .consumed {} }

/-- R141: RESET gives every component its reset value, emits nothing, and leaves the configuration. `buf` and `tx_pkt` are
unspecified (R34) and not said. -/
def Obligations.ResetReturnsToTheResetState : Prop :=
  ∀ s : State, ∃ (buf pkt : Bytes7) (n : Nat), exec .reset s = .next { s with
    accumulating := false, position := 0, txPending := false, buf := buf, txPkt := pkt, draws := n,
    report := .consumed {} }

/-- R34: the startup reset. -/
def Obligations.StartupResetState : Prop :=
  State.reset.accumulating = false ∧ State.reset.position = 0 ∧ State.reset.txPending = false

/-- R151, R154, R176: RESET abandons a pending request, and an answer to it then faults. That the fault records the encoding of
the TXDONE is the model's inference (log entry 9, DEDUCED). -/
def Obligations.LateAnswerAfterResetFaults : Prop :=
  ∀ (ok : Bool) (s : State), s.txPending = true → ∃ t : State, exec .reset s = .next t ∧ t.txPending = false ∧
    exec (.txdone ok) t = .fault (.txdoneUnexpected (encode (.txdone ok)))

/-! ### Whole-machine rules (spec/10_state.md) -/

/-- R26, R27, R28 hold after reset. -/
def Obligations.InvariantHoldsAtReset : Prop := State.reset.Inv

/-- R26, R27, R28: every step keeps the invariant of the Framer and the forwarding stage. -/
def Obligations.EveryStepKeepsTheInvariant : Prop := ∀ s t : State, s.Inv → step s = .next t → t.Inv

/-- R30, R172: no step changes the configuration. -/
def Obligations.ConfigurationIsFixed : Prop := ∀ s t : State, step s = .next t → t.cfg = s.cfg

/-- R29: two states that differ only in unspecified bytes make the same step, with the same report, and still differ only
there. -/
def Obligations.UnspecifiedBytesAreNeverObserved : Prop :=
  ∀ s t : State, s.Inv → t.Inv → s.SameSpecified t → SameOutcome (step s) (step t)

/-- R31: each output field is present exactly in the step whose rule emits it. -/
def Obligations.OutputFieldsArePresentWhereEmitted : Prop :=
  ∀ (i : Instr) (s t : State) (o : Output), exec i s = .next t → t.report = .consumed o →
    (o.csum.isSome = true ↔ ∃ (n : BitVec 3) (d : Bytes7), i = .csum n d) ∧
    (o.packet.isSome = true ↔ ∃ h c : Byte, i = .build h c) ∧
    (o.flags.isSome = true ↔ ∃ f : Bytes7, i = .valid f) ∧
    (o.outcome.isSome = true ↔ ∃ ok : Bool, i = .txdone ok) ∧
    (o.frame.isSome = true ↔ s.accumulating = true ∧ s.position = 6 ∧ ∃ b : Byte, i = .feed b) ∧
    o.frameFlags.isSome = o.frame.isSome ∧
    (o.txReq.isSome = true ↔ s.accumulating = true ∧ s.position = 6 ∧ ∃ b : Byte, i = .feed b ∧
      (s.cfg.check = .ignore ∨ b = s.buf[0] ^^^ s.buf[1] ^^^ s.buf[2] ^^^ s.buf[3] ^^^ s.buf[4] ^^^ s.buf[5]))

/-- R112: every emitted frame begins with the header, and its flag says so. -/
def Obligations.EveryEmittedFrameBeginsWithTheHeader : Prop :=
  ∀ (s t : State) (o : Output) (f : Bytes7), s.Inv → step s = .next t → t.report = .consumed o → o.frame = some f →
    f[0] = 0xAA ∧ ∃ flags : Flags, o.frameFlags = some flags ∧ flags.getLsbD 1 = true

/-! ### Runs (spec/42_framer.md, spec/43_forwarding.md, spec/70_reset_and_hazards.md) -/

/-- R113: any run of bytes without a header, accepted while IDLE, changes nothing and emits nothing. -/
def Obligations.LeadingGarbageIsDropped : Prop :=
  ∀ (bs : List Byte) (ws : List Word) (s : State), s.txPending = false → s.accumulating = false → bs ≠ [] →
    (∀ b ∈ bs, b ≠ 0xAA) → s.words = bs.map (fun b => encode (.feed b)) ++ ws →
    Sys2Proof.core.run bs.length s = .next { s with words := ws, report := .consumed {} } ∧
    ∀ e ∈ observe bs.length s, e.output = some {}

/-- R115 (with R45, R106, R108): in a run with no RESET, from any state that meets the invariant, the emitted frames are the
accepted bytes cut as the rule says, and the frame in progress is what is left over. -/
def Obligations.AcceptedBytesAreCutIntoFrames : Prop :=
  ∀ (k : Nat) (s : State), s.Inv → (∀ e ∈ observe k s, e.isReset = false) →
    ((framesOf (observe k s)).map Vector.toList, (finalState k s).partialFrame) =
      cutFrames s.partialFrame (acceptedOf (observe k s))

/-- R125: in any run the transmit requests are, in order, one for each completed frame that the checksum policy passes, and no
other, each with the packet of the forwarding policy. -/
def Obligations.EachPassedFrameIsRequestedOnce : Prop :=
  ∀ (k : Nat) (s : State),
    requestsOf (observe k s) = (framesOf (observe k s)).filterMap fun f : Bytes7 =>
      let sum := f[0] ^^^ f[1] ^^^ f[2] ^^^ f[3] ^^^ f[4] ^^^ f[5]
      if s.cfg.check = .reject ∧ f[6] ≠ sum then none
      else if s.cfg.forward = .commandOnly then some #v[f[0], f[1], 0x00, 0x00, 0x00, 0x00, f[0] ^^^ f[1]]
      else some #v[f[0], f[1], f[2], f[3], f[4], f[5], sum]

/-- R125, R129: in a run with no RESET, each outcome answers one request, and at most one request waits. -/
def Obligations.EachOutcomeAnswersOneRequest : Prop :=
  ∀ (k : Nat) (s : State), (∀ e ∈ observe k s, e.isReset = false) →
    (requestsOf (observe k s)).length + s.txPending.toNat =
      (outcomesOf (observe k s)).length + (finalState k s).txPending.toNat

/-- R70, R122, R123, R124 (programs P1 and P5): the seven bytes of SENDCMD `c`, fed to an IDLE block under any configuration, come
out as one valid frame and as a request with the same seven bytes. -/
def Obligations.CommandFrameReachesTheSink : Prop :=
  ∀ (c : Byte) (ws : List Word) (s : State), s.txPending = false → s.accumulating = false →
    s.words = (sendcmdBytes c).map (fun b => encode (.feed b)) ++ ws →
    ∃ t : State, Sys2Proof.core.run 7 s = .next t ∧ t.words = ws ∧ t.txPending = true ∧
      t.txPkt = #v[0xAA, c, 0x00, 0x00, 0x00, 0x00, 0xAA ^^^ c] ∧
      t.report = .consumed { frame := some t.txPkt, frameFlags := some 7, txReq := some t.txPkt }

/-- R174: if the sink never answers, every FEED of a run of FEEDs is held and nothing moves. That the presentation of a held
word leaves `words`, though the word is not consumed (R157), is the model's choice (log entry 3, DESIGN CHOICE), and that the
held word is the encoding of the FEED is its inference (log entry 9, DEDUCED). `FeedIsHeldWhilePending` gives the rule for one
FEED among other words. -/
def Obligations.UnansweredRequestHoldsEveryFeed : Prop :=
  ∀ (bs : List Byte) (ws : List Word) (s : State), s.txPending = true →
    s.words = bs.map (fun b => encode (.feed b)) ++ ws →
    (∃ r : Report, Sys2Proof.core.run bs.length s = .next { s with words := ws, report := r }) ∧
    observe bs.length s = bs.map fun b => .shown (encode (.feed b)) (.held (encode (.feed b)))

/-! ### Assembler (spec/30_encoding.md) -/

/-- R69: the rule's example lines, as text, give the rule's words; its refusals are refused. -/
def Obligations.AssemblerExamples : Prop :=
  assembleProgram ["FEED 0xAA".toList, "BUILD 0xAA, 0x05".toList, "TXDONE 1 ; the sink".toList,
    "CSUM 6, 0xAA, 0x05, 0, 0, 0, 0".toList] =
      some [0x10000000000000AA, 0x30000000000005AA, 0x5100000000000000, 0x2C000000000005AA] ∧
  assembleText "FEED 256".toList = none ∧ assembleText "CSUM 8, 1, 2, 3, 4, 5, 6, 7, 8".toList = none ∧
  assembleText "TXDONE 2".toList = none ∧ assembleText "BUILD 0xAA".toList = none

/-- R69: which lines of the seven operations assemble, and to what. -/
def Obligations.AssemblerAcceptsExactlyTheForms : Prop :=
  (∀ (ns : List Nat) (is : List Instr), assembleLine ⟨.nop, ns⟩ = some is ↔ ns = [] ∧ is = [.nop]) ∧
  (∀ (ns : List Nat) (is : List Instr), assembleLine ⟨.feed, ns⟩ = some is ↔
    ∃ b : Byte, ns = [b.toNat] ∧ is = [.feed b]) ∧
  (∀ (ns : List Nat) (is : List Instr), assembleLine ⟨.csum, ns⟩ = some is ↔
    ∃ (n : BitVec 3) (bs : List Byte), ns = n.toNat :: bs.map BitVec.toNat ∧ bs.length = n.toNat ∧
      is = [.csum n (Vector.ofFn fun i : Fin 7 => bs.getD i.val 0)]) ∧
  (∀ (ns : List Nat) (is : List Instr), assembleLine ⟨.build, ns⟩ = some is ↔
    ∃ h c : Byte, ns = [h.toNat, c.toNat] ∧ is = [.build h c]) ∧
  (∀ (ns : List Nat) (is : List Instr), assembleLine ⟨.valid, ns⟩ = some is ↔
    ∃ f : Bytes7, ns = f.toList.map BitVec.toNat ∧ is = [.valid f]) ∧
  (∀ (ns : List Nat) (is : List Instr), assembleLine ⟨.txdone, ns⟩ = some is ↔
    ∃ ok : Bool, ns = [ok.toNat] ∧ is = [.txdone ok]) ∧
  (∀ (ns : List Nat) (is : List Instr), assembleLine ⟨.reset, ns⟩ = some is ↔ ns = [] ∧ is = [.reset])

/-- R70: FEEDS is one FEED per byte in order, and SENDCMD feeds the bytes of the built packet. -/
def Obligations.PseudoOperationsExpandToFeeds : Prop :=
  (∀ bs : List Byte, bs ≠ [] → assembleLine ⟨.feeds, bs.map BitVec.toNat⟩ = some (bs.map .feed)) ∧
  (∀ c : Byte, assembleLine ⟨.sendcmd, [c.toNat]⟩ = some ((buildPacket 0xAA c).toList.map .feed) ∧
    sendcmdBytes c = (buildPacket 0xAA c).toList)
end

