-- ==== Sys2Proof/Laws/Assembler.lean ====
section
/-! SUPPORT. The assembler: when a line assembles, and how numbers become operands. -/

namespace Sys2Proof.Machine

/-- A line assembles exactly when it is well formed, and then to its expansion (R69). -/
theorem assembleLine_some {l : AsmLine} {is : List Instr} :
    assembleLine l = some is ↔ l.wellFormed = true ∧ expandLine l = is := by
  unfold assembleLine
  split <;> simp_all

@[simp] theorem asByte_toNat (b : Byte) : asByte b.toNat = b := by simp [asByte]

/-- Numbers that all fit a byte are the numbers of some bytes. -/
theorem allBytes_iff {ns : List Nat} : allBytes ns = true ↔ ∃ bs : List Byte, ns = bs.map BitVec.toNat := by
  constructor
  · intro h
    refine ⟨ns.map asByte, ?_⟩
    simp only [allBytes, List.all_eq_true, decide_eq_true_eq] at h
    rw [List.map_map]
    conv => lhs; rw [← List.map_id ns]
    refine List.map_congr_left fun n hn => ?_
    have := h n hn
    simp [asByte]
    omega
  · rintro ⟨bs, rfl⟩
    simp only [allBytes, List.all_map, List.all_eq_true, Function.comp_apply, decide_eq_true_eq]
    intro b _
    have := b.isLt
    omega

end Sys2Proof.Machine
end

