-- ==== Sys2Proof/Laws/Operands.lean ====
section
/-! SUPPORT. The operand forms: lanes of a packed sequence, the fields of an assembled word, single-byte writes. -/

namespace Sys2Proof.Machine

theorem bytes7_ext {f g : Bytes7} (h0 : f[0] = g[0]) (h1 : f[1] = g[1]) (h2 : f[2] = g[2]) (h3 : f[3] = g[3])
    (h4 : f[4] = g[4]) (h5 : f[5] = g[5]) (h6 : f[6] = g[6]) : f = g := by
  apply Vector.ext
  intro i hi
  have : i = 0 ∨ i = 1 ∨ i = 2 ∨ i = 3 ∨ i = 4 ∨ i = 5 ∨ i = 6 := by omega
  rcases this with rfl | rfl | rfl | rfl | rfl | rfl | rfl <;> assumption

theorem bytes7_eta (f : Bytes7) : f = #v[f[0], f[1], f[2], f[3], f[4], f[5], f[6]] :=
  bytes7_ext rfl rfl rfl rfl rfl rfl rfl

/-- The bytes of a sequence as a list, one by one. -/
theorem toList_bytes7 (f : Bytes7) : f.toList = [f[0], f[1], f[2], f[3], f[4], f[5], f[6]] := by
  conv => lhs; rw [bytes7_eta f]
  rfl

/-- Bit `j` of lane `i` of a vector is bit `8i + j` of it (R44). -/
theorem getLsbD_lane (d : BitVec 56) (i j : Nat) : (lane d i).getLsbD j = (decide (j < 8) && d.getLsbD (8 * i + j)) := by
  simp [lane]

/-- A bit above a vector's width is 0. -/
theorem getLsbD_above {n : Nat} (x : BitVec n) (k : Nat) (h : n ≤ k) : x.getLsbD k = false := BitVec.getLsbD_of_ge x k h

/-- Bit `k` of one byte set in its lane. -/
theorem getLsbD_inLane (b : Byte) (i k : Nat) :
    (inLane b i).getLsbD k = (decide (k < 56) && decide (8 * i ≤ k) && b.getLsbD (k - 8 * i)) := by
  have above := getLsbD_above b (k - 8 * i)
  simp only [inLane, BitVec.getLsbD_shiftLeft, BitVec.getLsbD_setWidth]
  grind

/-- Lane `i` of a packed sequence is byte `i` (R44). -/
theorem lane_pack (f : Bytes7) (i : Fin 7) : lane (pack f) i.val = f[i] := by
  apply BitVec.eq_of_getLsbD_eq
  intro j hj
  have out : ∀ (b : Byte) (n : Nat), 8 ≤ n → b.getLsbD n = false := fun b n h => BitVec.getLsbD_of_ge b n h
  rw [getLsbD_lane]
  simp only [pack, BitVec.getLsbD_or, getLsbD_inLane]
  fin_cases i <;> simp <;> grind

@[simp] theorem unpack_pack (f : Bytes7) : unpack (pack f) = f := by
  apply bytes7_ext
  · exact lane_pack f 0
  · exact lane_pack f 1
  · exact lane_pack f 2
  · exact lane_pack f 3
  · exact lane_pack f 4
  · exact lane_pack f 5
  · exact lane_pack f 6

section

variable (op : BitVec 4) (len : BitVec 3) (ok : Bool) (data : BitVec 56)

/-- Every bit of an assembled word is a bit of the field it stands in (R61). -/
theorem getLsbD_assembleWord (k : Nat) :
    (assembleWord op len ok data).getLsbD k =
      if k < 56 then data.getLsbD k else if k = 56 then ok else if k < 60 then len.getLsbD (k - 57)
      else op.getLsbD (k - 60) := by
  have aboveOp := getLsbD_above op (k - 60)
  have aboveLen := getLsbD_above len (k - 57)
  have aboveData := getLsbD_above data k
  simp only [assembleWord, BitVec.getLsbD_or, BitVec.getLsbD_shiftLeft, BitVec.getLsbD_setWidth, BitVec.getLsbD_ofBool]
  grind

@[simp] theorem opField_assembleWord : opField (assembleWord op len ok data) = op := by
  apply BitVec.eq_of_getLsbD_eq
  intro j hj
  simp only [opField, BitVec.getLsbD_extractLsb', getLsbD_assembleWord]
  grind

@[simp] theorem lenField_assembleWord : lenField (assembleWord op len ok data) = len := by
  apply BitVec.eq_of_getLsbD_eq
  intro j hj
  simp only [lenField, BitVec.getLsbD_extractLsb', getLsbD_assembleWord]
  grind

@[simp] theorem okField_assembleWord : okField (assembleWord op len ok data) = ok := by
  simp only [okField, getLsbD_assembleWord]
  rfl

@[simp] theorem dataField_assembleWord : dataField (assembleWord op len ok data) = data := by
  apply BitVec.eq_of_getLsbD_eq
  intro j hj
  simp only [dataField, BitVec.getLsbD_extractLsb', getLsbD_assembleWord]
  grind

/-- The low 60 bits of an assembled word, bit by bit (R64). -/
theorem getLsbD_lowBits_assembleWord (k : Nat) :
    (lowBits (assembleWord op len ok data)).getLsbD k =
      if k < 56 then data.getLsbD k else if k = 56 then ok else len.getLsbD (k - 57) := by
  have aboveLen := getLsbD_above len (k - 57)
  simp only [lowBits, BitVec.getLsbD_extractLsb', getLsbD_assembleWord]
  grind

end

/-- A word is the assembly of its four fields (R61). -/
theorem assembleWord_fields (w : Word) : assembleWord (opField w) (lenField w) (okField w) (dataField w) = w := by
  apply BitVec.eq_of_getLsbD_eq
  intro j hj
  simp only [getLsbD_assembleWord, opField, lenField, okField, dataField, BitVec.getLsbD_extractLsb']
  grind

/-- A 56-bit vector is the packing of its seven lanes (R44). -/
theorem pack_lanes (d : BitVec 56) : pack (unpack d) = d := by
  apply BitVec.eq_of_getLsbD_eq
  intro j hj
  simp [unpack, pack, getLsbD_inLane, getLsbD_lane]
  grind

/-- The data field of one byte operand, as seven lanes. -/
theorem packList_one (b : Byte) : packList [b] = pack #v[b, 0, 0, 0, 0, 0, 0] := rfl

/-- The data field of two byte operands, as seven lanes. -/
theorem packList_two (h c : Byte) : packList [h, c] = pack #v[h, c, 0, 0, 0, 0, 0] := rfl

/-- The low bits of a word are clear under a mask when every bit in the mask is. -/
theorem and_eq_zero {x m : BitVec 60} (h : ∀ k < 60, m.getLsbD k = true → x.getLsbD k = false) : x &&& m = 0 := by
  apply BitVec.eq_of_getLsbD_eq
  intro k hk
  have := h k hk
  simp only [BitVec.getLsbD_and]
  cases hm : m.getLsbD k <;> simp_all

/-- Writing byte `i` sets byte `i` and leaves the others. -/
theorem getElem_writeByte (f : Bytes7) (i : Nat) (b : Byte) (j : Fin 7) :
    (writeByte f i b)[j] = if i = j.val then b else f[j] := by
  simp [writeByte, Vector.getElem_setIfInBounds]

end Sys2Proof.Machine
end

