-- ==== Sys2Proof/Laws/Checksum.lean ====
section
/-! SUPPORT. The checksum, the validator's predicates and the packets, byte by byte. -/

namespace Sys2Proof.Machine

/-- The checksum is the fold of the bytes it covers, whatever sequence they stand in. -/
theorem checksum_eq_fold (d : Bytes7) (n : Nat) : checksum d n = (d.toList.take n).foldl (· ^^^ ·) 0 := rfl

/-- The checksum that stands in byte 6 of a frame (R84). -/
theorem checksum_six (d : Bytes7) : checksum d 6 = d[0] ^^^ d[1] ^^^ d[2] ^^^ d[3] ^^^ d[4] ^^^ d[5] := by
  simp [checksum, toList_bytes7]

theorem csumOk_iff (f : Bytes7) : csumOk f = true ↔ f[6] = f[0] ^^^ f[1] ^^^ f[2] ^^^ f[3] ^^^ f[4] ^^^ f[5] := by
  rw [csumOk, checksum_six, beq_iff_eq]

theorem hdrOk_iff (f : Bytes7) : hdrOk f = true ↔ f[0] = 0xAA := by
  rw [hdrOk, beq_iff_eq]
  rfl

theorem valid_iff (f : Bytes7) : valid f = true ↔ hdrOk f = true ∧ csumOk f = true := by simp [valid]

/-- The three flags by bit (R72). -/
theorem validatorFlags_bits (f : Bytes7) :
    (validatorFlags f).getLsbD 0 = csumOk f ∧ (validatorFlags f).getLsbD 1 = hdrOk f ∧
    (validatorFlags f).getLsbD 2 = valid f := by
  unfold validatorFlags
  cases csumOk f <;> cases hdrOk f <;> cases valid f <;> decide

/-- `stampChecksum` keeps bytes 0 to 5 and puts their exclusive-or in byte 6. -/
theorem stampChecksum_eq (f : Bytes7) :
    stampChecksum f = #v[f[0], f[1], f[2], f[3], f[4], f[5], f[0] ^^^ f[1] ^^^ f[2] ^^^ f[3] ^^^ f[4] ^^^ f[5]] := by
  rw [stampChecksum, checksum_six]
  apply bytes7_ext <;> simp [writeByte]

/-- A built packet, byte by byte (R90). -/
theorem buildPacket_eq (h c : Byte) : buildPacket h c = #v[h, c, 0, 0, 0, 0, h ^^^ c] := by
  rw [buildPacket, stampChecksum_eq]
  simp

/-- The completed frame: the six bytes held and the seventh (R107). -/
theorem writeByte_six (f : Bytes7) (b : Byte) : writeByte f 6 b = #v[f[0], f[1], f[2], f[3], f[4], f[5], b] := by
  apply bytes7_ext <;> simp [writeByte]

/-- Whatever is forwarded keeps header and command and carries their frame's own fresh checksum (R122, R123). -/
theorem outboundPacket_eq (p : ForwardPolicy) (f : Bytes7) :
    outboundPacket p f = match p with
      | .commandOnly => #v[f[0], f[1], 0, 0, 0, 0, f[0] ^^^ f[1]]
      | .full => #v[f[0], f[1], f[2], f[3], f[4], f[5], f[0] ^^^ f[1] ^^^ f[2] ^^^ f[3] ^^^ f[4] ^^^ f[5]] := by
  cases p
  · exact buildPacket_eq _ _
  · exact stampChecksum_eq _

/-- A frame is dropped exactly under REJECT with a wrong checksum byte (R121). -/
theorem forwardedPacket_eq (cfg : Config) (f : Bytes7) :
    forwardedPacket cfg f =
      if cfg.check = .reject ∧ csumOk f = false then none else some (outboundPacket cfg.forward f) := by
  cases hc : cfg.check <;> cases ho : csumOk f <;> simp [forwardedPacket, hc, ho]

end Sys2Proof.Machine
end

