-- ==== Sys2Proof/Laws/State.lean ====
section
/-! SUPPORT. One lemma per field per update of the state, so that no later proof unfolds a record update. -/

namespace Sys2Proof.Machine

section

variable (s : State) (a : Bool) (p : BitVec 3) (f : Bytes7)

@[simp] theorem State.setFramer_accumulating : (s.setFramer a p f).accumulating = a := rfl
@[simp] theorem State.setFramer_position : (s.setFramer a p f).position = p := rfl
@[simp] theorem State.setFramer_buf : (s.setFramer a p f).buf = f := rfl
@[simp] theorem State.setFramer_txPending : (s.setFramer a p f).txPending = s.txPending := rfl
@[simp] theorem State.setFramer_txPkt : (s.setFramer a p f).txPkt = s.txPkt := rfl
@[simp] theorem State.setFramer_cfg : (s.setFramer a p f).cfg = s.cfg := rfl
@[simp] theorem State.setFramer_words : (s.setFramer a p f).words = s.words := rfl
@[simp] theorem State.setFramer_report : (s.setFramer a p f).report = s.report := rfl
@[simp] theorem State.setFramer_draws : (s.setFramer a p f).draws = s.draws := rfl

end

section

variable (s : State) (b : Bool) (q : Bytes7)

@[simp] theorem State.setTx_accumulating : (s.setTx b q).accumulating = s.accumulating := rfl
@[simp] theorem State.setTx_position : (s.setTx b q).position = s.position := rfl
@[simp] theorem State.setTx_buf : (s.setTx b q).buf = s.buf := rfl
@[simp] theorem State.setTx_txPending : (s.setTx b q).txPending = b := rfl
@[simp] theorem State.setTx_txPkt : (s.setTx b q).txPkt = q := rfl
@[simp] theorem State.setTx_cfg : (s.setTx b q).cfg = s.cfg := rfl
@[simp] theorem State.setTx_words : (s.setTx b q).words = s.words := rfl
@[simp] theorem State.setTx_report : (s.setTx b q).report = s.report := rfl
@[simp] theorem State.setTx_draws : (s.setTx b q).draws = s.draws := rfl

end

section

variable (s : State) (r : Report)

@[simp] theorem State.setReport_accumulating : (s.setReport r).accumulating = s.accumulating := rfl
@[simp] theorem State.setReport_position : (s.setReport r).position = s.position := rfl
@[simp] theorem State.setReport_buf : (s.setReport r).buf = s.buf := rfl
@[simp] theorem State.setReport_txPending : (s.setReport r).txPending = s.txPending := rfl
@[simp] theorem State.setReport_txPkt : (s.setReport r).txPkt = s.txPkt := rfl
@[simp] theorem State.setReport_cfg : (s.setReport r).cfg = s.cfg := rfl
@[simp] theorem State.setReport_words : (s.setReport r).words = s.words := rfl
@[simp] theorem State.setReport_report : (s.setReport r).report = r := rfl
@[simp] theorem State.setReport_draws : (s.setReport r).draws = s.draws := rfl

end

section

variable (s : State) (ws : List Word)

@[simp] theorem State.setWords_accumulating : (s.setWords ws).accumulating = s.accumulating := rfl
@[simp] theorem State.setWords_position : (s.setWords ws).position = s.position := rfl
@[simp] theorem State.setWords_buf : (s.setWords ws).buf = s.buf := rfl
@[simp] theorem State.setWords_txPending : (s.setWords ws).txPending = s.txPending := rfl
@[simp] theorem State.setWords_txPkt : (s.setWords ws).txPkt = s.txPkt := rfl
@[simp] theorem State.setWords_cfg : (s.setWords ws).cfg = s.cfg := rfl
@[simp] theorem State.setWords_words : (s.setWords ws).words = ws := rfl
@[simp] theorem State.setWords_report : (s.setWords ws).report = s.report := rfl
@[simp] theorem State.setWords_draws : (s.setWords ws).draws = s.draws := rfl

end

section

variable (s : State) (n : Nat)

@[simp] theorem State.countDraws_accumulating : (s.countDraws n).accumulating = s.accumulating := rfl
@[simp] theorem State.countDraws_position : (s.countDraws n).position = s.position := rfl
@[simp] theorem State.countDraws_buf : (s.countDraws n).buf = s.buf := rfl
@[simp] theorem State.countDraws_txPending : (s.countDraws n).txPending = s.txPending := rfl
@[simp] theorem State.countDraws_txPkt : (s.countDraws n).txPkt = s.txPkt := rfl
@[simp] theorem State.countDraws_cfg : (s.countDraws n).cfg = s.cfg := rfl
@[simp] theorem State.countDraws_words : (s.countDraws n).words = s.words := rfl
@[simp] theorem State.countDraws_report : (s.countDraws n).report = s.report := rfl
@[simp] theorem State.countDraws_draws : (s.countDraws n).draws = s.draws + n := rfl

end

/-- A state is its nine fields. -/
@[ext] theorem State.ext_fields {s t : State} (h1 : s.accumulating = t.accumulating) (h2 : s.position = t.position)
    (h3 : s.buf = t.buf) (h4 : s.txPending = t.txPending) (h5 : s.txPkt = t.txPkt) (h6 : s.cfg = t.cfg)
    (h7 : s.words = t.words) (h8 : s.report = t.report) (h9 : s.draws = t.draws) : s = t := by
  cases s
  cases t
  simp_all

end Sys2Proof.Machine
end

