-- ==== Sys2Proof/Laws/Ops.lean ====
section
/-! SUPPORT. The shared operations: everything each of them can do. -/

namespace Sys2Proof.Machine

/-- `emit` always answers, and writes the report alone. -/
@[simp] theorem emit_next (o : Output) (s : State) : emit o s = .next (s.setReport (.consumed o)) := rfl

/-- `hold` always answers, and writes the report alone (R157). -/
@[simp] theorem hold_next (w : Word) (s : State) : hold w s = .next (s.setReport (.held w)) := rfl

/-- `raise` gives no next state (R156). -/
@[simp] theorem raise_fault (f : Fault) : raise f = .fault f := rfl

@[simp] theorem wait_next (s : State) : wait s = .next (s.setReport .noStep) := rfl

@[simp] theorem fetch_nil {s : State} (h : s.words = []) : fetch s = none := by simp [fetch, h]

@[simp] theorem fetch_cons {s : State} {w : Word} {ws : List Word} (h : s.words = w :: ws) :
    fetch s = some (w, s.setWords ws) := by simp [fetch, h]

end Sys2Proof.Machine
end

