-- ==== Sys2Proof/Laws/Meanings.lean ====
section
/-! SUPPORT. Everything a meaning, `exec` or `step` can answer, said once. -/

namespace Sys2Proof.Machine

/-- The ends of a completing step (R120): the frame dropped, or its request made. -/
theorem forward_cases {f : Bytes7} {o : Output} {s t : State} (h : forward f o s = .next t) :
    (forwardedPacket s.cfg f = none ∧ t = s.setReport (.consumed o)) ∨
    (∃ pkt, forwardedPacket s.cfg f = some pkt ∧
      t = (s.setTx true pkt).setReport (.consumed { o with txReq := some pkt })) := by
  unfold forward at h
  cases hp : forwardedPacket s.cfg f <;> simp_all

/-- The state of a completing step before its frame is forwarded (R105). -/
def State.frameTaken (s : State) : State := (s.setFramer false 0 (freeBytes s.draws)).countDraws 7

/-- The record of a completing step before its frame is forwarded (R107). -/
def frameRecord (f : Bytes7) : Output := { frame := some f, frameFlags := some (validatorFlags f) }

theorem completeFrame_eq (b : Byte) (s : State) :
    completeFrame b s = forward (writeByte s.buf 6 b) (frameRecord (writeByte s.buf 6 b)) s.frameTaken := rfl

/-- Everything FEED can do (R101): held, header taken, byte discarded, byte appended, frame completed, or the free position of
the state that R22 rules out. -/
theorem execFeed_cases {b : Byte} {s t : State} (h : execFeed b s = .next t) :
    (s.txPending = true ∧ t = s.setReport (.held (encode (.feed b)))) ∨
    (s.txPending = false ∧ s.accumulating = false ∧ b = header ∧
      t = (s.setFramer true 1 (writeByte s.buf 0 b)).setReport (.consumed Output.empty)) ∨
    (s.txPending = false ∧ s.accumulating = false ∧ b ≠ header ∧ t = s.setReport (.consumed Output.empty)) ∨
    (s.txPending = false ∧ s.accumulating = true ∧ s.position.toNat < 6 ∧
      t = (s.setFramer true (s.position + 1) (writeByte s.buf s.position.toNat b)).setReport (.consumed Output.empty)) ∨
    (s.txPending = false ∧ s.accumulating = true ∧ s.position = 6 ∧ completeFrame b s = .next t) ∨
    (s.txPending = false ∧ s.accumulating = true ∧ s.position = 7 ∧
      t = ((s.setFramer true (Config.freePosition s.draws) s.buf).countDraws 1).setReport (.consumed Output.empty)) := by
  unfold execFeed at h
  cases hp : s.txPending
  · cases ha : s.accumulating
    · by_cases hb : b = header <;> simp_all [feedIdle]
    · have hpos := s.position.isLt
      simp only [hp, ha, feedAccumulating, frameSize] at h
      by_cases h6 : s.position.toNat + 1 = 7
      · have : s.position = 6 := BitVec.eq_of_toNat_eq (by simpa using Nat.succ_injective h6)
        simp_all
      · by_cases h7 : s.position.toNat < 7
        · have hlt : s.position.toNat < 6 := by omega
          simp_all
        · have : s.position = 7 := BitVec.eq_of_toNat_eq (by show s.position.toNat = 7; omega)
          simp_all
  · simp_all

/-- Everything TXDONE can do when it does not fault (R127). -/
theorem execTxdone_cases {ok : Bool} {s t : State} (h : execTxdone ok s = .next t) :
    s.txPending = true ∧
      t = ((s.setTx false (freeBytes s.draws)).countDraws 7).setReport (.consumed { outcome := some ok }) := by
  unfold execTxdone at h
  cases hp : s.txPending <;> simp_all

/-- A completing step, with its two ends (R105, R120). -/
theorem completeFrame_cases {b : Byte} {s t : State} (h : completeFrame b s = .next t) :
    (forwardedPacket s.cfg (writeByte s.buf 6 b) = none ∧
      t = s.frameTaken.setReport (.consumed (frameRecord (writeByte s.buf 6 b)))) ∨
    (∃ pkt, forwardedPacket s.cfg (writeByte s.buf 6 b) = some pkt ∧
      t = (s.frameTaken.setTx true pkt).setReport
        (.consumed { frameRecord (writeByte s.buf 6 b) with txReq := some pkt })) := by
  rw [completeFrame_eq] at h
  exact forward_cases h

/-- FEED never faults and is never refused: the Framer cannot fail (R109). -/
theorem execFeed_next (b : Byte) (s : State) : ∃ t, execFeed b s = .next t := by
  have forwarded : ∀ (f : Bytes7) (o : Output) (u : State), ∃ t, forward f o u = .next t := by
    intro f o u
    unfold forward
    cases forwardedPacket u.cfg f <;> simp
  unfold execFeed
  split
  · simp
  · split
    · unfold feedAccumulating
      dsimp only
      split
      · exact forwarded _ _ _
      · split <;> simp
    · unfold feedIdle
      split <;> simp

/-- The record of an operation that only computes: NOP, CSUM, BUILD, VALID. -/
def pureRecord : Instr → Option Output
  | .nop => some Output.empty
  | .csum n d => some { csum := some (checksum d n.toNat) }
  | .build h c => some { packet := some (buildPacket h c) }
  | .valid f => some { flags := some (validatorFlags f) }
  | .feed _ => none
  | .txdone _ => none
  | .reset => none

/-- Everything an operation can answer: a FEED, a TXDONE with a request pending, a RESET, or a record that leaves every other
part of the state alone. -/
theorem exec_cases {i : Instr} {s t : State} (h : exec i s = .next t) :
    (∃ b, i = .feed b ∧ execFeed b s = .next t) ∨
    (∃ ok, i = .txdone ok ∧ s.txPending = true ∧
      t = ((s.setTx false (freeBytes s.draws)).countDraws 7).setReport (.consumed { outcome := some ok })) ∨
    (i = .reset ∧ t = s.resetParts.setReport (.consumed Output.empty)) ∨
    (∃ o, pureRecord i = some o ∧ t = s.setReport (.consumed o)) := by
  cases i with
  | feed b => exact .inl ⟨b, rfl, h⟩
  | txdone ok => exact .inr (.inl ⟨ok, rfl, execTxdone_cases h⟩)
  | reset =>
    simp only [exec, execReset, emit_next, Host.Outcome.next.injEq] at h
    exact .inr (.inr (.inl ⟨rfl, h.symm⟩))
  | nop =>
    simp only [exec, execNop, emit_next, Host.Outcome.next.injEq] at h
    exact .inr (.inr (.inr ⟨_, rfl, h.symm⟩))
  | csum n d =>
    simp only [exec, execCsum, emit_next, Host.Outcome.next.injEq] at h
    exact .inr (.inr (.inr ⟨_, rfl, h.symm⟩))
  | build a c =>
    simp only [exec, execBuild, emit_next, Host.Outcome.next.injEq] at h
    exact .inr (.inr (.inr ⟨_, rfl, h.symm⟩))
  | valid f =>
    simp only [exec, execValid, emit_next, Host.Outcome.next.injEq] at h
    exact .inr (.inr (.inr ⟨_, rfl, h.symm⟩))

/-- A step that answers a next state waited, or ran the operation of its word (R14, R66). -/
theorem step_cases {s t : State} (h : step s = .next t) :
    (s.words = [] ∧ t = s.setReport .noStep) ∨
    (∃ w ws i, s.words = w :: ws ∧ decode w = .ok i ∧ exec i (s.setWords ws) = .next t) := by
  unfold step at h
  cases hw : s.words with
  | nil => simp_all
  | cons w ws =>
    simp only [fetch_cons hw] at h
    cases hd : decode w with
    | ok i => exact .inr ⟨w, ws, i, rfl, hd, by simpa [hd] using h⟩
    | illegalOp => simp [hd] at h
    | reservedField => simp [hd] at h

end Sys2Proof.Machine
end

