-- ==== Sys2Proof/Laws/PerInstr.lean ====
section
/-! SUPPORT. What holds of every operation's word, one lemma per constructor: its `op` field is the table's (R62), and its
reserved-zero bits are clear (R64). -/

namespace Sys2Proof.Laws.EncodedWord

open Sys2Proof.Machine

/-- The word of `i` passes both checks of the decoder (R66). -/
def Statement (i : Instr) : Prop :=
  opField (encode i) = opcode i ∧ lowBits (encode i) &&& reservedMask (opcode i).toNat = 0

theorem nop : Statement .nop := by unfold Statement; decide

theorem feed (b : Byte) : Statement (.feed b) := by
  refine ⟨opField_assembleWord _ _ _ _, and_eq_zero fun k hk hm => ?_⟩
  have mask : reservedMask (opcode (.feed b)).toNat = BitVec.allOnes 60 <<< 8 := rfl
  simp only [mask, BitVec.getLsbD_shiftLeft, BitVec.getLsbD_allOnes] at hm
  simp only [encode, getLsbD_lowBits_assembleWord, packList_one, pack, BitVec.getLsbD_or, getLsbD_inLane]
  have := getLsbD_above b k
  simp
  grind

theorem csum (n : BitVec 3) (d : Bytes7) : Statement (.csum n d) := by
  refine ⟨opField_assembleWord _ _ _ _, and_eq_zero fun k hk hm => ?_⟩
  have mask : reservedMask (opcode (.csum n d)).toNat = 1#60 <<< 56 := rfl
  simp only [mask, BitVec.getLsbD_shiftLeft, BitVec.getLsbD_one] at hm
  simp only [encode, getLsbD_lowBits_assembleWord]
  grind

theorem build (h c : Byte) : Statement (.build h c) := by
  refine ⟨opField_assembleWord _ _ _ _, and_eq_zero fun k hk hm => ?_⟩
  have mask : reservedMask (opcode (.build h c)).toNat = BitVec.allOnes 60 <<< 16 := rfl
  simp only [mask, BitVec.getLsbD_shiftLeft, BitVec.getLsbD_allOnes] at hm
  simp only [encode, getLsbD_lowBits_assembleWord, packList_two, pack, BitVec.getLsbD_or, getLsbD_inLane]
  have := getLsbD_above h k
  have := getLsbD_above c (k - 8)
  simp
  grind

theorem valid (f : Bytes7) : Statement (.valid f) := by
  refine ⟨opField_assembleWord _ _ _ _, and_eq_zero fun k hk hm => ?_⟩
  have mask : reservedMask (opcode (.valid f)).toNat = BitVec.allOnes 60 <<< 56 := rfl
  simp only [mask, BitVec.getLsbD_shiftLeft, BitVec.getLsbD_allOnes] at hm
  simp only [encode, getLsbD_lowBits_assembleWord]
  simp
  grind

theorem txdone (ok : Bool) : Statement (.txdone ok) := by
  cases ok <;> (unfold Statement; decide)

theorem reset : Statement .reset := by unfold Statement; decide

end Sys2Proof.Laws.EncodedWord
end

