-- ==== Sys2Proof/Laws/Runs.lean ====
section
/-! SUPPORT. One turn of a run: what `Host.Core.run`, `observe` and `finalState` do with a step that answers a next state. -/

namespace Sys2Proof.Machine

theorem run_succ {k : Nat} {s t : State} (h : step s = .next t) :
    Sys2Proof.core.run (k + 1) s = Sys2Proof.core.run k t := by
  have turn : ∀ (M : Host.Core) (u v : M.State), M.step u = .next v → M.run (k + 1) u = M.run k v := by
    intro M u v huv
    simp [Host.Core.run, huv]
  exact turn Sys2Proof.core s t h

theorem observe_succ {k : Nat} {s t : State} {w : Word} {ws : List Word} (hw : s.words = w :: ws) (h : step s = .next t) :
    observe (k + 1) s = .shown w t.report :: observe k t := by simp [observe, hw, h]

theorem finalState_succ {k : Nat} {s t : State} {w : Word} {ws : List Word} (hw : s.words = w :: ws)
    (h : step s = .next t) : finalState (k + 1) s = finalState k t := by simp [finalState, hw, h]

theorem observe_fault {k : Nat} {s : State} {w : Word} {ws : List Word} {f : Fault} (hw : s.words = w :: ws)
    (h : step s = .fault f) : observe (k + 1) s = [.faulted f] := by simp [observe, hw, h]

end Sys2Proof.Machine
end

