-- ==== Sys2Proof/Tests/Slice0.lean ====
section
/-! SUPPORT. Small tests: assembly lines that are refused, words written out from spec/, one step of each operation with results
from spec/95_test_vectors.md, and a witness for every statement that has hypotheses. -/

namespace Sys2Proof.Tests

open Sys2Proof.Machine

/-! ### Helpers -/

/-- A state of the given Framer and forwarding parts, with the default configuration. -/
def mk (acc : Bool) (pos : BitVec 3) (buf : Bytes7) (pend : Bool) (ws : List Word) : State :=
  { State.reset with
    accumulating := acc, position := pos, buf := buf, txPending := pend,
    txPkt := #v[0xAA, 0x05, 0, 0, 0, 0, 0xAF], words := ws }

/-- The buffer of the source's end-to-end example after six bytes; byte 6 is stale. -/
def sixHeld : Bytes7 := #v[0xAA, 0x05, 0x11, 0x22, 0x33, 0x44, 0x99]

def idle (ws : List Word) : State := mk false 0 sixHeld false ws
def mid (pos : BitVec 3) (ws : List Word) : State := mk true pos sixHeld false ws
def pending (ws : List Word) : State := mk false 0 sixHeld true ws

/-- What holds of the next state, false if there is none. -/
def nextHolds (r : Result) (p : State → Bool) : Bool :=
  match r with
  | .next t => p t
  | .fault _ => false
  | .refused _ => false

/-- The record of the step that led to `t`. -/
def outOf (t : State) : Option Output :=
  match t.report with
  | .consumed o => some o
  | .held _ => none
  | .noStep => none

def faultOf (r : Result) : Option Fault :=
  match r with
  | .next _ => none
  | .fault f => some f
  | .refused _ => none

def withCfg (s : State) (c : CheckPolicy) (f : ForwardPolicy) : State := { s with cfg := { check := c, forward := f } }

/-! ### WellFormed: an ill-formed line for each check (R69, R70) -/

theorem test_refuses_operand_of_nop : AsmLine.wellFormed ⟨.nop, [0]⟩ = false := by decide
theorem test_refuses_operand_of_reset : AsmLine.wellFormed ⟨.reset, [1]⟩ = false := by decide
theorem test_refuses_feed_count : AsmLine.wellFormed ⟨.feed, [1, 2]⟩ = false := by decide
theorem test_refuses_feed_byte : AsmLine.wellFormed ⟨.feed, [0x100]⟩ = false := by decide
theorem test_refuses_csum_without_count : AsmLine.wellFormed ⟨.csum, []⟩ = false := by decide
theorem test_refuses_csum_n : AsmLine.wellFormed ⟨.csum, [8, 1, 2, 3, 4, 5, 6, 7, 8]⟩ = false := by decide
theorem test_refuses_csum_count : AsmLine.wellFormed ⟨.csum, [2, 1]⟩ = false := by decide
theorem test_refuses_csum_byte : AsmLine.wellFormed ⟨.csum, [1, 0x100]⟩ = false := by decide
theorem test_refuses_build_count : AsmLine.wellFormed ⟨.build, [0xAA]⟩ = false := by decide
theorem test_refuses_build_byte : AsmLine.wellFormed ⟨.build, [0xAA, 0x100]⟩ = false := by decide
theorem test_refuses_valid_count : AsmLine.wellFormed ⟨.valid, [1, 2, 3, 4, 5, 6]⟩ = false := by decide
theorem test_refuses_valid_byte : AsmLine.wellFormed ⟨.valid, [1, 2, 3, 4, 5, 6, 0x100]⟩ = false := by decide
theorem test_refuses_txdone_count : AsmLine.wellFormed ⟨.txdone, []⟩ = false := by decide
theorem test_refuses_txdone_ok : AsmLine.wellFormed ⟨.txdone, [2]⟩ = false := by decide
theorem test_refuses_feeds_empty : AsmLine.wellFormed ⟨.feeds, []⟩ = false := by decide
theorem test_refuses_feeds_byte : AsmLine.wellFormed ⟨.feeds, [0, 0x100]⟩ = false := by decide
theorem test_refuses_sendcmd_count : AsmLine.wellFormed ⟨.sendcmd, []⟩ = false := by decide
theorem test_refuses_sendcmd_byte : AsmLine.wellFormed ⟨.sendcmd, [0x100]⟩ = false := by decide
theorem test_accepts_csum_line : AsmLine.wellFormed ⟨.csum, [7, 1, 2, 3, 4, 5, 6, 0xFF]⟩ = true := by decide

/-! ### Decoding: words written out from R61, R62 and section 2 of spec/95_test_vectors.md -/

theorem test_decode_nop : decode 0x0000000000000000 = .ok .nop := by decide
theorem test_decode_feed : decode 0x10000000000000AB = .ok (.feed 0xAB) := by decide
theorem test_decode_csum :
    decode 0x2E40201008040201 = .ok (.csum 7 #v[0x01, 0x02, 0x04, 0x08, 0x10, 0x20, 0x40]) := by decide
theorem test_decode_build : decode 0x3000000000003412 = .ok (.build 0x12 0x34) := by decide
theorem test_decode_valid :
    decode 0x4055443322AA11AA = .ok (.valid #v[0xAA, 0x11, 0xAA, 0x22, 0x33, 0x44, 0x55]) := by decide
theorem test_decode_txdone_failure : decode 0x5000000000000000 = .ok (.txdone false) := by decide
theorem test_decode_txdone_success : decode 0x5100000000000000 = .ok (.txdone true) := by decide
theorem test_decode_reset : decode 0x6000000000000000 = .ok .reset := by decide
theorem test_decode_first_reserved_op : decode 0x7FFFFFFFFFFFFFFF = .illegalOp := by decide
theorem test_decode_last_reserved_op : decode 0xF000000000000000 = .illegalOp := by decide
theorem test_decode_nop_reserved : decode 0x0000000000000001 = .reservedField := by decide
theorem test_decode_feed_reserved : decode 0x10000000000001AA = .reservedField := by decide
theorem test_decode_csum_reserved : decode 0x2D00000000000000 = .reservedField := by decide
theorem test_decode_build_reserved : decode 0x30000000000105AA = .reservedField := by decide
theorem test_decode_valid_reserved : decode 0x4200000000000000 = .reservedField := by decide
theorem test_decode_txdone_reserved : decode 0x5200000000000000 = .reservedField := by decide
theorem test_decode_reset_reserved : decode 0x6000000000000001 = .reservedField := by decide
theorem test_encode_csum_example : encode (.csum 6 #v[0xAA, 0x05, 0, 0, 0, 0, 0]) = 0x2C000000000005AA := by decide
theorem test_decodeTableWord : decodeTableWord 64 0x30000000000005AA = some (.build 0xAA 0x05) := by decide

/-! ### One step of each operation, with the results of spec/95_test_vectors.md -/

/-- V-C1. -/
theorem test_nop_keeps_a_frame_in_progress :
    nextHolds (step (mid 3 [0])) (fun t => t == { mid 3 [] with report := .consumed {} }) = true := by decide

/-- V-F5: a header value inside a frame is data. -/
theorem test_feed_header_value_inside_frame :
    nextHolds (step (mid 1 [0x10000000000000AA])) (fun t => t.position == 2 && t.buf[1] == 0xAA) = true := by decide

/-- V-P4: the completing byte under FULL. -/
theorem test_feed_completes_under_full :
    nextHolds (step (withCfg (mid 6 [0x1000000000000000]) .ignore .full)) (fun t =>
      !t.accumulating && t.position == 0 && t.txPending &&
      outOf t == some { frame := some #v[0xAA, 0x05, 0x11, 0x22, 0x33, 0x44, 0x00], frameFlags := some 0b010,
                        txReq := some #v[0xAA, 0x05, 0x11, 0x22, 0x33, 0x44, 0xEB] }) = true := by decide

/-- V-CS8: lanes at or above `n` are ignored. -/
theorem test_csum_ignores_lanes_above_n :
    nextHolds (step (idle [0x24FFFFFFFFFF0201])) (fun t => outOf t == some { csum := some 0x03 }) = true := by decide

/-- V-CS9: every bit once. -/
theorem test_csum_all_seven :
    nextHolds (step (pending [0x2E40201008040201])) (fun t => outOf t == some { csum := some 0x7F }) = true := by decide

/-- V-B5. -/
theorem test_build_other_header :
    nextHolds (step (idle [0x3000000000003412])) (fun t =>
      outOf t == some { packet := some #v[0x12, 0x34, 0, 0, 0, 0, 0x26] }) = true := by decide

/-- V-V6: well-formed and not valid. -/
theorem test_valid_wrong_header :
    nextHolds (step (idle [0x4050000000000555])) (fun t => outOf t == some { flags := some 0b001 }) = true := by decide

/-- V-V4: the right header and the wrong checksum. -/
theorem test_valid_wrong_checksum :
    nextHolds (step (idle [0x40000000000000AA])) (fun t => outOf t == some { flags := some 0b010 }) = true := by decide

/-- V-T2. -/
theorem test_txdone_failure :
    nextHolds (step (pending [0x5000000000000000])) (fun t =>
      !t.txPending && outOf t == some { outcome := some false }) = true := by decide

/-- V-T3. -/
theorem test_txdone_unexpected :
    faultOf (step (idle [0x5100000000000000])) = some (.txdoneUnexpected 0x5100000000000000) := by decide

/-- V-C3. -/
theorem test_reset_abandons_a_frame :
    nextHolds (step (mid 3 [0x6000000000000000])) (fun t =>
      !t.accumulating && t.position == 0 && !t.txPending && outOf t == some {}) = true := by decide

/-- V-F9: the reserved-field check comes before the hold. -/
theorem test_reserved_field_before_hold :
    faultOf (step (pending [0x1000000000000100])) = some (.reservedField 0x1000000000000100) := by decide

/-- The word placed for the next step is the one that step runs. -/
theorem test_withFetchWord :
    nextHolds (step (State.reset.withFetchWord 64 0x10000000000000AA)) (fun t => t.accumulating && t.position == 1) = true := by
  decide

/-! ### Witnesses: the hypotheses of each statement are met together -/

theorem witness_EncodeOfDecodeIsTheWord : decode 0x2E40201008040201 = .ok (.csum 7 #v[1, 2, 4, 8, 0x10, 0x20, 0x40]) := by
  decide

/-- The three clauses at their boundaries: op 7 and 15, op 0 and 6 with a reserved bit, op 0 and 6 without. -/
theorem witness_DecoderClassifiesEveryWord :
    decode 0x7000000000000000 = .illegalOp ∧ decode 0xFFFFFFFFFFFFFFFF = .illegalOp ∧
    decode 0x0800000000000000 = .reservedField ∧ decode 0x6FFFFFFFFFFFFFFF = .reservedField ∧
    decode 0x0000000000000000 = .ok .nop ∧ decode 0x6000000000000000 = .ok .reset := by decide

/-- One accepted word for each clause with an operand, every operand bit set. -/
theorem witness_OperandsAreTheFieldsAsTheyStand :
    decode 0x10000000000000FF = .ok (.feed 0xFF) ∧
    decode 0x2EFFFFFFFFFFFFFF = .ok (.csum 7 #v[0xFF, 0xFF, 0xFF, 0xFF, 0xFF, 0xFF, 0xFF]) ∧
    decode 0x300000000000FFFF = .ok (.build 0xFF 0xFF) ∧
    decode 0x40FFFFFFFFFFFFFF = .ok (.valid #v[0xFF, 0xFF, 0xFF, 0xFF, 0xFF, 0xFF, 0xFF]) ∧
    decode 0x5100000000000000 = .ok (.txdone true) := by decide

theorem witness_StepRunsTheDecodedInstruction :
    (idle [0x10000000000000AA, 0]).words = 0x10000000000000AA :: [0] ∧ decode 0x10000000000000AA = .ok (.feed 0xAA) := by decide

theorem witness_StepWaitsForAWord : (idle []).words = [] := by decide

/-- `op` at both ends of its range. -/
theorem witness_ReservedOpFaults :
    (idle [0x7000000000000000]).words = [0x7000000000000000] ∧ 7 ≤ (0x7000000000000000 : Word).toNat / 2 ^ 60 ∧
    7 ≤ (0xFFFFFFFFFFFFFFFF : Word).toNat / 2 ^ 60 := by decide

/-- `op` at both ends of its range. -/
theorem witness_ReservedFieldFaults :
    (pending [0x0000000000000001]).words = [0x0000000000000001] ∧ (0x0000000000000001 : Word).toNat / 2 ^ 60 ≤ 6 ∧
    (0x0000000000000001 : Word).toNat % 2 ^ 60 &&& 0x0FFFFFFFFFFFFFFF ≠ 0 ∧
    (0x6000000000000001 : Word).toNat / 2 ^ 60 ≤ 6 ∧
    (0x6000000000000001 : Word).toNat % 2 ^ 60 &&& 0x0FFFFFFFFFFFFFFF ≠ 0 := by decide

theorem witness_UnexpectedTxdoneFaults : (idle []).txPending = false := by decide

theorem witness_ContractKeepingRunsNeverFault :
    respectsContract 2 (pending [0x5100000000000000, 0x10000000000000AA]) = true ∧
    .shown 0x5100000000000000 (.consumed { outcome := some true }) ∈
      observe 2 (pending [0x5100000000000000, 0x10000000000000AA]) := by decide

theorem witness_ChecksumAccumulatesByteByByte :
    ∀ i : Fin 7, i.val < 2 → (#v[1, 2, 3, 4, 5, 6, 7] : Bytes7)[i] = (#v[1, 2, 9, 9, 9, 9, 9] : Bytes7)[i] := by decide

theorem witness_ChecksumLaws :
    ((#v[1, 2, 3, 4, 5, 6, 7] : Bytes7).toList.take 3).Perm ((#v[2, 3, 1, 9, 9, 9, 9] : Bytes7).toList.take 3) ∧
    (#v[0xAA, 0x05, 0, 9, 9, 9, 9] : Bytes7).toList.take 3 ++ (#v[0, 0, 0, 8, 8, 8, 8] : Bytes7).toList.take (6 - 3) =
      (#v[0xAA, 0x05, 0, 0, 0, 0, 7] : Bytes7).toList.take 6 := by decide

theorem witness_FeedHeaderStartsAFrame : (idle []).txPending = false ∧ (idle []).accumulating = false := by decide

theorem witness_FeedOtherByteIsDiscarded :
    (idle []).txPending = false ∧ (idle []).accumulating = false ∧ (0xAB : Byte) ≠ 0xAA := by decide

/-- The first and the last position of the range. -/
theorem witness_FeedAppendsWhileAccumulating :
    (mid 1 []).txPending = false ∧ (mid 1 []).accumulating = true ∧ 1 ≤ (mid 1 []).position.toNat ∧
    (mid 1 []).position.toNat ≤ 5 ∧ 1 ≤ (mid 5 []).position.toNat ∧ (mid 5 []).position.toNat ≤ 5 := by decide

theorem witness_SeventhByteCompletesTheFrame :
    (mid 6 []).txPending = false ∧ (mid 6 []).accumulating = true ∧ (mid 6 []).position = 6 := by decide

/-- Both branches: a dropped frame and a forwarded one. -/
theorem witness_ChecksumPolicyDecidesTheRequest :
    (withCfg (mid 6 []) .reject .full).txPending = false ∧ (withCfg (mid 6 []) .reject .full).accumulating = true ∧
    (withCfg (mid 6 []) .reject .full).position = 6 ∧
    nextHolds (exec (.feed 0x00) (withCfg (mid 6 []) .reject .full)) (fun t => !t.txPending) = true ∧
    nextHolds (exec (.feed 0xEB) (withCfg (mid 6 []) .reject .full)) (fun t => t.txPending) = true := by decide

theorem witness_CommandOnlyForwardsTheCommand :
    (mid 6 []).txPending = false ∧ (mid 6 []).accumulating = true ∧ (mid 6 []).position = 6 ∧
    (mid 6 []).cfg.forward = .commandOnly ∧ (mid 6 []).cfg.check = .ignore := by decide

theorem witness_FullForwardsThePayload :
    (withCfg (mid 6 []) .ignore .full).txPending = false ∧ (withCfg (mid 6 []) .ignore .full).accumulating = true ∧
    (withCfg (mid 6 []) .ignore .full).position = 6 ∧ (withCfg (mid 6 []) .ignore .full).cfg.forward = .full ∧
    (withCfg (mid 6 []) .ignore .full).cfg.check = .ignore := by decide

theorem witness_InboundChecksumByteIsIgnoredByDefault :
    (mid 6 []).cfg = { check := .ignore, forward := .commandOnly } ∧ (mid 6 []).txPending = false ∧
    (mid 6 []).accumulating = true ∧ (mid 6 []).position = 6 := by decide

theorem witness_FeedIsHeldWhilePending : (pending []).txPending = true := by decide

theorem witness_FramerNeverFails : inReady (idle []) = true ∧ inReady (pending []) = false := by decide

/-- A hold, and each of the two ways a pending transmit ends. -/
theorem witness_HoldIsFeedAloneAndEndsByTxdoneOrReset :
    nextHolds (exec (.feed 1) (pending [])) (fun t => t.report == .held 0x1000000000000001) = true ∧
    (pending []).txPending = true ∧
    nextHolds (exec (.txdone true) (pending [])) (fun t => !t.txPending) = true ∧
    nextHolds (exec .reset (pending [])) (fun t => !t.txPending) = true := by decide

theorem witness_HeldByteIsAcceptedAfterTheAnswer : (pending []).txPending = true := by decide

theorem witness_OnlyFeedAndResetMoveTheFramer : nextHolds (exec .nop (mid 3 [])) (fun t => t.position == 3) = true := by decide

theorem witness_TxdoneEndsTheTransmit : (pending []).txPending = true := by decide

theorem witness_FailureLeavesTheStateOfSuccess : (pending []).txPending = true := by decide

/-- The second clause at a completing FEED, the third at a NOP. -/
theorem witness_PendingPacketIsPresentedUnchanged :
    nextHolds (exec (.feed 0xEB) (mid 6 [])) (fun t =>
      (outOf t).map (·.txReq) == some (some #v[0xAA, 0x05, 0, 0, 0, 0, 0xAF])) = true ∧
    nextHolds (exec .nop (pending [])) (fun t => t.txPending) = true ∧ (pending []).txPending = true := by decide

theorem witness_OnlyThreeEventsMoveTheForwardingStage :
    nextHolds (exec .nop (pending [])) (fun t => t.txPending) = true := by decide

theorem witness_EveryRequestedPacketIsValid :
    (mid 6 [0x10000000000000EB]).Inv ∧
    nextHolds (step (mid 6 [0x10000000000000EB])) (fun t =>
      (outOf t).map (·.txReq) == some (some #v[0xAA, 0x05, 0, 0, 0, 0, 0xAF])) = true ∧
    (mid 6 [0x10000000000000EB]).cfg.forward = .commandOnly := by decide

theorem witness_PendingPacketStaysValid :
    (pending [0]).Inv ∧ (pending [0]).PendingValid ∧ nextHolds (step (pending [0])) (fun t => t.txPending) = true := by decide

theorem witness_LateAnswerAfterResetFaults : (pending []).txPending = true := by decide

theorem witness_EveryStepKeepsTheInvariant :
    (mid 5 [0x10000000000000AA]).Inv ∧
    nextHolds (step (mid 5 [0x10000000000000AA])) (fun t => t.position == 6) = true := by decide

theorem witness_ConfigurationIsFixed :
    nextHolds (step (withCfg (mid 5 [0x6000000000000000]) .reject .full)) (fun t => t.position == 0) = true := by decide

/-- Two states that differ in a byte above the position and in the packet of no request. -/
theorem witness_UnspecifiedBytesAreNeverObserved :
    (mid 2 [0]).Inv ∧ (mk true 2 #v[0xAA, 0x05, 0, 0, 0, 0, 0] false [0]).Inv ∧
    (mid 2 [0]).SameSpecified { mk true 2 #v[0xAA, 0x05, 0, 0, 0, 0, 0] false [0] with txPkt := zeroBytes } ∧
    mid 2 [0] ≠ { mk true 2 #v[0xAA, 0x05, 0, 0, 0, 0, 0] false [0] with txPkt := zeroBytes } := by
  unfold State.SameSpecified
  decide

/-- Each field present once. -/
theorem witness_OutputFieldsArePresentWhereEmitted :
    nextHolds (exec (.csum 0 zeroBytes) (idle [])) (fun t => ((outOf t).bind (·.csum)).isSome) = true ∧
    nextHolds (exec (.build 0 0) (idle [])) (fun t => ((outOf t).bind (·.packet)).isSome) = true ∧
    nextHolds (exec (.valid zeroBytes) (idle [])) (fun t => ((outOf t).bind (·.flags)).isSome) = true ∧
    nextHolds (exec (.txdone true) (pending [])) (fun t => ((outOf t).bind (·.outcome)).isSome) = true ∧
    nextHolds (exec (.feed 0) (mid 6 [])) (fun t => ((outOf t).bind (·.frame)).isSome) = true := by decide

theorem witness_EveryEmittedFrameBeginsWithTheHeader :
    (mid 6 [0x1000000000000000]).Inv ∧
    nextHolds (step (mid 6 [0x1000000000000000])) (fun t => ((outOf t).bind (·.frame)).isSome) = true := by decide

theorem witness_LeadingGarbageIsDropped :
    (idle [0x1000000000000001, 0x1000000000000002, 0]).txPending = false ∧
    (idle [0x1000000000000001, 0x1000000000000002, 0]).accumulating = false ∧
    ([0x01, 0x02] : List Byte) ≠ [] ∧ (∀ b ∈ ([0x01, 0x02] : List Byte), b ≠ 0xAA) ∧
    (idle [0x1000000000000001, 0x1000000000000002, 0]).words =
      ([0x01, 0x02] : List Byte).map (fun b => encode (.feed b)) ++ [0] := by decide

theorem witness_AcceptedBytesAreCutIntoFrames :
    (mid 5 [0x10000000000000AA, 0x1000000000000001]).Inv ∧
    (∀ e ∈ observe 2 (mid 5 [0x10000000000000AA, 0x1000000000000001]), e.isReset = false) ∧
    framesOf (observe 2 (mid 5 [0x10000000000000AA, 0x1000000000000001])) =
      [#v[0xAA, 0x05, 0x11, 0x22, 0x33, 0xAA, 0x01]] := by decide

theorem witness_EachOutcomeAnswersOneRequest :
    (∀ e ∈ observe 2 (mid 6 [0x1000000000000000, 0x5000000000000000]), e.isReset = false) ∧
    outcomesOf (observe 2 (mid 6 [0x1000000000000000, 0x5000000000000000])) = [false] := by decide

theorem witness_CommandFrameReachesTheSink :
    (idle ((sendcmdBytes 0x06).map fun b => encode (.feed b))).txPending = false ∧
    (idle ((sendcmdBytes 0x06).map fun b => encode (.feed b))).accumulating = false ∧
    (idle ((sendcmdBytes 0x06).map fun b => encode (.feed b))).words =
      (sendcmdBytes 0x06).map (fun b => encode (.feed b)) ++ [] := by decide

theorem witness_UnansweredRequestHoldsEveryFeed :
    (pending [0x10000000000000AA, 0]).txPending = true ∧
    (pending [0x10000000000000AA, 0]).words = ([0xAA] : List Byte).map (fun b => encode (.feed b)) ++ [0] := by decide

theorem witness_PseudoOperationsExpandToFeeds :
    ([0x01, 0x02] : List Byte) ≠ [] ∧ assembleLine ⟨.feeds, [0x01, 0x02]⟩ = some [.feed 0x01, .feed 0x02] := by decide

end Sys2Proof.Tests
end

section
/-! PROOFS. The step on a presented word (spec/00_scope.md, spec/20_memory.md). -/

namespace Sys2Proof.Machine

/-- R14, R66: an accepted word is taken and its operation run. -/
theorem step_of_decode_ok {s : State} {w : Word} {ws : List Word} {i : Instr} (hw : s.words = w :: ws)
    (hd : decode w = .ok i) : step s = exec i (s.setWords ws) := by
  simp only [step, fetch_cons hw, hd]

/-- Settles O8: the presentation taken is the state's `setWords`. -/
theorem stepRunsTheDecodedInstruction : Obligations.StepRunsTheDecodedInstruction :=
  fun _ _ _ _ hw hd => step_of_decode_ok hw hd

end Sys2Proof.Machine
end

section
/-! PROOFS. Equations of the meanings where their case is known: the byte appended, the frame completed and forwarded, the answer to a
pending request (R104, R105, R124, R127). -/

namespace Sys2Proof.Machine

theorem feedAccumulating_of_lt {b : Byte} {s : State} (h : s.position.toNat < 6) :
    feedAccumulating b s =
      emit Output.empty (s.setFramer true (s.position + 1) (writeByte s.buf s.position.toNat b)) := by
  have hlast : ¬ s.position.toNat + 1 = frameSize := by
    unfold frameSize
    omega
  have hin : s.position.toNat < frameSize := by
    unfold frameSize
    omega
  simp only [feedAccumulating, hlast, hin, if_true, if_false]

theorem feedAccumulating_of_eq {b : Byte} {s : State} (h : s.position.toNat = 6) :
    feedAccumulating b s = completeFrame b s := if_pos (by rw [h, frameSize])

/-- A byte accepted at position 6 completes its frame (R105). -/
theorem execFeed_of_position_six {b : Byte} {s : State} (hp : s.txPending = false) (ha : s.accumulating = true)
    (h6 : s.position = 6) : execFeed b s = completeFrame b s := by
  have hlast : s.position.toNat = 6 := by simp [h6]
  simp [execFeed, hp, ha, feedAccumulating_of_eq hlast]

theorem completeFrame_of_forwarded {b : Byte} {s : State} {pkt : Bytes7}
    (hf : forwardedPacket s.cfg (writeByte s.buf 6 b) = some pkt) :
    completeFrame b s = .next ((s.frameTaken.setTx true pkt).setReport
      (.consumed { frameRecord (writeByte s.buf 6 b) with txReq := some pkt })) := by
  have hf' : forwardedPacket s.frameTaken.cfg (writeByte s.buf 6 b) = some pkt := hf
  simp [completeFrame_eq, forward, hf']

theorem execTxdone_of_pending (ok : Bool) {s : State} (hp : s.txPending = true) :
    execTxdone ok s =
      .next (((s.setTx false (freeBytes s.draws)).countDraws 7).setReport (.consumed { outcome := some ok })) := by
  simp [execTxdone, hp]

end Sys2Proof.Machine
end

section
/-! PROOFS. The invariant between steps (R26 to R28): the two forms of a state that meets it, and that every step keeps it. -/

namespace Sys2Proof.Machine

/-- An IDLE state at position 0 meets the invariant, whatever its forwarding stage holds. -/
theorem inv_of_idle {s : State} (ha : s.accumulating = false) (hpos : s.position = 0) : s.Inv :=
  ⟨fun _ => hpos, by simp [ha], fun _ => ⟨ha, hpos⟩⟩

/-- A frame in progress meets the invariant: it began with the header, and no transmit is pending beside it. -/
theorem inv_of_accumulating {s : State} (ha : s.accumulating = true) (hp : s.txPending = false)
    (h1 : 1 ≤ s.position.toNat) (h6 : s.position.toNat ≤ 6) (hb : s.buf[0] = 0xAA) : s.Inv :=
  ⟨by simp [ha], fun _ => ⟨h1, h6, hb⟩, by simp [hp]⟩

theorem inv_reset : State.reset.Inv := inv_of_idle rfl rfl

/-- The position after an appended byte (R104): below 6 nothing wraps. -/
theorem toNat_position_succ {p : BitVec 3} (h : p.toNat < 6) : (p + 1).toNat = p.toNat + 1 := by
  have hadd : (p + 1).toNat = (p.toNat + 1) % 8 := BitVec.toNat_add p 1
  omega

theorem completeFrame_keeps_inv {b : Byte} {s t : State} (h : completeFrame b s = .next t) : t.Inv := by
  obtain ⟨-, rfl⟩ | ⟨pkt, -, rfl⟩ := completeFrame_cases h
  · exact inv_of_idle rfl rfl
  · exact inv_of_idle rfl rfl

theorem execFeed_keeps_inv {b : Byte} {s t : State} (hs : s.Inv) (h : execFeed b s = .next t) : t.Inv := by
  obtain ⟨-, rfl⟩ | ⟨hp, -, rfl, rfl⟩ | ⟨-, -, -, rfl⟩ | ⟨hp, ha, hlt, rfl⟩ | ⟨-, -, -, hc⟩ | ⟨-, ha, h7, -⟩ :=
    execFeed_cases h
  · exact hs
  · exact inv_of_accumulating rfl hp (by simp) (by simp) (by simp [writeByte, header])
  · exact hs
  · obtain ⟨-, hacc, -⟩ := hs
    obtain ⟨h1, -, hb⟩ := hacc ha
    have hpos := toNat_position_succ hlt
    have hne : s.position.toNat ≠ 0 := by omega
    refine inv_of_accumulating rfl hp ?_ ?_ ?_
    · simp only [State.setReport_position, State.setFramer_position, hpos]
      omega
    · simp only [State.setReport_position, State.setFramer_position, hpos]
      omega
    · exact ((getElem_writeByte s.buf s.position.toNat b 0).trans (if_neg hne)).trans hb
  · exact completeFrame_keeps_inv hc
  · obtain ⟨-, hacc, -⟩ := hs
    have h6 := (hacc ha).2.1
    simp [h7] at h6

theorem exec_keeps_inv {i : Instr} {s t : State} (hs : s.Inv) (h : exec i s = .next t) : t.Inv := by
  obtain ⟨b, rfl, hf⟩ | ⟨ok, rfl, hp, rfl⟩ | ⟨rfl, rfl⟩ | ⟨o, -, rfl⟩ := exec_cases h
  · exact execFeed_keeps_inv hs hf
  · obtain ⟨-, -, hpend⟩ := hs
    obtain ⟨ha, hpos⟩ := hpend hp
    exact inv_of_idle ha hpos
  · exact inv_of_idle rfl rfl
  · exact hs

/-- Settles O46: a step waits or runs one operation, and each keeps the invariant. -/
theorem everyStepKeepsTheInvariant : Obligations.EveryStepKeepsTheInvariant := by
  intro s t hs h
  obtain ⟨-, rfl⟩ | ⟨w, ws, i, -, -, he⟩ := step_cases h
  · exact hs
  · have hws : (s.setWords ws).Inv := hs
    exact exec_keeps_inv hws he

/-- Settles O45: the reset state is IDLE at position 0. -/
theorem invariantHoldsAtReset : Obligations.InvariantHoldsAtReset := inv_reset

/-- Settles O43: the three components the rule gives, read off the reset state. -/
theorem startupResetState : Obligations.StartupResetState := ⟨rfl, rfl, rfl⟩

end Sys2Proof.Machine
end

section
/-! PROOFS. Unspecified bytes are never observed (R29): each write of the state keeps two states equal up to those bytes, so each
operation does. -/

namespace Sys2Proof.Machine

section

variable {s t : State} (h : s.SameSpecified t)

include h

theorem State.SameSpecified.setReport (r : Report) : (s.setReport r).SameSpecified (t.setReport r) := by
  obtain ⟨ha, hpos, hp, hc, hw, -, hb, hk⟩ := h
  exact ⟨ha, hpos, hp, hc, hw, rfl, hb, hk⟩

theorem State.SameSpecified.setWords (ws : List Word) : (s.setWords ws).SameSpecified (t.setWords ws) := by
  obtain ⟨ha, hpos, hp, hc, -, hr, hb, hk⟩ := h
  exact ⟨ha, hpos, hp, hc, rfl, hr, hb, hk⟩

/-- The counts of free values may move apart. -/
theorem State.SameSpecified.countDraws (m n : Nat) : (s.countDraws m).SameSpecified (t.countDraws n) := by
  obtain ⟨ha, hpos, hp, hc, hw, hr, hb, hk⟩ := h
  exact ⟨ha, hpos, hp, hc, hw, hr, hb, hk⟩

/-- Two buffers have to agree below the new position only. -/
theorem State.SameSpecified.setFramer (a : Bool) {p : BitVec 3} {f g : Bytes7}
    (hfg : ∀ i : Fin 7, i.val < p.toNat → f[i] = g[i]) : (s.setFramer a p f).SameSpecified (t.setFramer a p g) := by
  obtain ⟨-, -, hp, hc, hw, hr, -, hk⟩ := h
  exact ⟨rfl, rfl, hp, hc, hw, hr, hfg, hk⟩

/-- Position 0 leaves the whole buffer unspecified. -/
theorem State.SameSpecified.setFramer_zero (a : Bool) (f g : Bytes7) :
    (s.setFramer a 0 f).SameSpecified (t.setFramer a 0 g) :=
  h.setFramer a fun i hi => absurd hi (by simp)

/-- Two packets have to agree only if a transmit becomes pending. -/
theorem State.SameSpecified.setTx {b : Bool} {q r : Bytes7} (hqr : b = true → q = r) :
    (s.setTx b q).SameSpecified (t.setTx b r) := by
  obtain ⟨ha, hpos, -, hc, hw, hr, hb, -⟩ := h
  exact ⟨ha, hpos, rfl, hc, hw, hr, hb, hqr⟩

theorem State.SameSpecified.emit (o : Output) : SameOutcome (emit o s) (emit o t) := h.setReport _

theorem State.SameSpecified.resetParts : s.resetParts.SameSpecified t.resetParts :=
  ((h.setFramer_zero _ _ _).setTx (by simp)).countDraws _ _

theorem State.SameSpecified.frameTaken : s.frameTaken.SameSpecified t.frameTaken :=
  (h.setFramer_zero _ _ _).countDraws _ _

theorem State.SameSpecified.forward (f : Bytes7) (o : Output) : SameOutcome (forward f o s) (forward f o t) := by
  have ⟨_, _, _, hcfg, _⟩ := h
  unfold Machine.forward
  rw [hcfg]
  cases forwardedPacket t.cfg f with
  | none => exact h.emit o
  | some pkt => exact (h.setTx fun _ => rfl).emit _

end

/-- Buffers that agree below `n` agree below `n + 1` once the same byte is written at `n`. -/
theorem writeByte_agree {f g : Bytes7} {n : Nat} (b : Byte) (h : ∀ i : Fin 7, i.val < n → f[i] = g[i]) (i : Fin 7)
    (hi : i.val < n + 1) : (writeByte f n b)[i] = (writeByte g n b)[i] := by
  rw [getElem_writeByte, getElem_writeByte]
  split
  · rfl
  · exact h i (by omega)

/-- The seventh byte completes equal frames from buffers that agree in the six before it. -/
theorem writeByte_six_congr {f g : Bytes7} (b : Byte) (h : ∀ i : Fin 7, i.val < 6 → f[i] = g[i]) :
    writeByte f 6 b = writeByte g 6 b :=
  Vector.ext fun i hi => writeByte_agree b h ⟨i, hi⟩ hi

theorem feedIdle_sameOutcome {s t : State} (b : Byte) (h : s.SameSpecified t) :
    SameOutcome (feedIdle b s) (feedIdle b t) := by
  unfold feedIdle
  split
  · exact (h.setFramer true (writeByte_agree b fun i hi => absurd hi (by omega))).emit _
  · exact h.emit _

theorem feedAccumulating_sameOutcome {s t : State} (b : Byte) (h6 : s.position.toNat ≤ 6) (h : s.SameSpecified t) :
    SameOutcome (feedAccumulating b s) (feedAccumulating b t) := by
  have ⟨_, hpos, _, _, _, _, hbuf, _⟩ := h
  obtain hlt | hlast := Nat.lt_or_eq_of_le h6
  · rw [feedAccumulating_of_lt hlt, feedAccumulating_of_lt (hpos ▸ hlt), ← hpos]
    refine (h.setFramer true fun i hi => writeByte_agree b hbuf i ?_).emit _
    rwa [toNat_position_succ hlt] at hi
  · rw [feedAccumulating_of_eq hlast, feedAccumulating_of_eq (hpos ▸ hlast), completeFrame_eq, completeFrame_eq,
      writeByte_six_congr b (hlast ▸ hbuf)]
    exact h.frameTaken.forward _ _

theorem execFeed_sameOutcome {s t : State} (b : Byte) (hs : s.Inv) (h : s.SameSpecified t) :
    SameOutcome (execFeed b s) (execFeed b t) := by
  have ⟨hacc, _, hpend, _⟩ := h
  obtain ⟨-, hframe, -⟩ := hs
  unfold execFeed
  rw [← hpend, ← hacc]
  split
  · exact h.setReport _
  · split
    next ha => exact feedAccumulating_sameOutcome b (hframe ha).2.1 h
    next => exact feedIdle_sameOutcome b h

theorem execTxdone_sameOutcome {s t : State} (ok : Bool) (h : s.SameSpecified t) :
    SameOutcome (execTxdone ok s) (execTxdone ok t) := by
  have ⟨_, _, hpend, _⟩ := h
  unfold execTxdone
  rw [← hpend]
  split
  · exact ((h.setTx (by simp)).countDraws _ _).emit _
  · rfl

theorem exec_sameOutcome {s t : State} (i : Instr) (hs : s.Inv) (h : s.SameSpecified t) :
    SameOutcome (exec i s) (exec i t) := by
  cases i with
  | feed b => exact execFeed_sameOutcome b hs h
  | txdone ok => exact execTxdone_sameOutcome ok h
  | reset => exact h.resetParts.emit _
  | nop => exact h.emit _
  | csum n d => exact h.emit _
  | build a c => exact h.emit _
  | valid f => exact h.emit _

/-- Settles O48: the two states present the same word, and no operation reads an unspecified byte. -/
theorem unspecifiedBytesAreNeverObserved : Obligations.UnspecifiedBytesAreNeverObserved := by
  intro s t hs _ h
  have ⟨_, _, _, _, hwords, _⟩ := h
  unfold step
  cases hw : s.words with
  | nil =>
    rw [fetch_nil hw, fetch_nil (hwords ▸ hw)]
    exact h.setReport _
  | cons w ws =>
    rw [fetch_cons hw, fetch_cons (hwords ▸ hw)]
    cases hd : decode w with
    | ok i =>
      have hws : (s.setWords ws).Inv := hs
      simpa only [hd] using exec_sameOutcome i hws (h.setWords ws)
    | illegalOp => simp [hd, SameOutcome]
    | reservedField => simp [hd, SameOutcome]

end Sys2Proof.Machine
end

section
/-! PROOFS. What an operation reports (R31, R157) and which output fields that record has. -/

namespace Sys2Proof.Machine

/-- The record of a FEED that is consumed: the frame and its request where the byte completes one, else no field. -/
def feedRecord (b : Byte) (s : State) : Output :=
  if s.accumulating = true ∧ s.position = 6 then
    { frameRecord (writeByte s.buf 6 b) with txReq := forwardedPacket s.cfg (writeByte s.buf 6 b) }
  else Output.empty

/-- The record of an operation that is consumed in `s`. -/
def consumedRecord (i : Instr) (s : State) : Output :=
  match i with
  | .feed b => feedRecord b s
  | .txdone ok => { outcome := some ok }
  | i => (pureRecord i).getD Output.empty

theorem feedRecord_of_complete {b : Byte} {s : State} (ha : s.accumulating = true) (h6 : s.position = 6) :
    feedRecord b s =
      { frameRecord (writeByte s.buf 6 b) with txReq := forwardedPacket s.cfg (writeByte s.buf 6 b) } :=
  if_pos ⟨ha, h6⟩

theorem feedRecord_of_incomplete {b : Byte} {s : State} (h : s.accumulating = true → s.position ≠ 6) :
    feedRecord b s = Output.empty := if_neg fun ⟨ha, h6⟩ => h ha h6

theorem completeFrame_report {b : Byte} {s t : State} (ha : s.accumulating = true) (h6 : s.position = 6)
    (h : completeFrame b s = .next t) : t.report = .consumed (feedRecord b s) := by
  rw [feedRecord_of_complete ha h6]
  obtain ⟨hf, rfl⟩ | ⟨pkt, hf, rfl⟩ := completeFrame_cases h
  · rw [hf]
    rfl
  · rw [hf]
    rfl

/-- FEED is held while a transmit is pending and consumed otherwise (R32, R111). -/
theorem execFeed_report {b : Byte} {s t : State} (h : execFeed b s = .next t) :
    t.report = if s.txPending then .held (encode (.feed b)) else .consumed (feedRecord b s) := by
  obtain ⟨hp, rfl⟩ | ⟨hp, ha, -, rfl⟩ | ⟨hp, ha, -, rfl⟩ | ⟨hp, -, hlt, rfl⟩ | ⟨hp, ha, h6, hc⟩ | ⟨hp, -, h7, rfl⟩ :=
    execFeed_cases h
  · simp [hp]
  · simp [hp, feedRecord_of_incomplete, ha]
  · simp [hp, feedRecord_of_incomplete, ha]
  · have hne : s.position ≠ 6 := by
      rintro h6
      simp [h6] at hlt
    simp [hp, feedRecord_of_incomplete fun _ => hne]
  · simp [hp, completeFrame_report ha h6 hc]
  · have hne : s.position ≠ 6 := by simp [h7]
    simp [hp, feedRecord_of_incomplete fun _ => hne]

/-- What is reported as consumed is the operation's own record (R31). -/
theorem exec_record {i : Instr} {s t : State} {o : Output} (h : exec i s = .next t) (hr : t.report = .consumed o) :
    o = consumedRecord i s := by
  obtain ⟨b, rfl, hf⟩ | ⟨ok, rfl, -, rfl⟩ | ⟨rfl, rfl⟩ | ⟨o', ho, rfl⟩ := exec_cases h
  · rw [execFeed_report hf] at hr
    split at hr
    · cases hr
    · exact (Report.consumed.inj hr).symm
  · exact (Report.consumed.inj hr).symm
  · exact (Report.consumed.inj hr).symm
  · have hoo : o' = o := Report.consumed.inj hr
    subst hoo
    cases i <;> simp_all [consumedRecord, pureRecord]

/-- A frame is forwarded under IGNORE or with a right checksum byte (R121). -/
theorem forwardedPacket_isSome_iff {cfg : Config} {f : Bytes7} :
    (forwardedPacket cfg f).isSome = true ↔ cfg.check = .ignore ∨ csumOk f = true := by
  rw [forwardedPacket_eq]
  cases cfg.check <;> cases csumOk f <;> simp

/-- The byte that makes a completed frame well-formed (R84). -/
theorem csumOk_writeByte_six_iff {f : Bytes7} {b : Byte} :
    csumOk (writeByte f 6 b) = true ↔ b = f[0] ^^^ f[1] ^^^ f[2] ^^^ f[3] ^^^ f[4] ^^^ f[5] := by
  rw [csumOk_iff, writeByte_six]
  simp

/-- Settles O49: the report of each operation is its record, whose fields are seen constructor by constructor. -/
theorem outputFieldsArePresentWhereEmitted : Obligations.OutputFieldsArePresentWhereEmitted := by
  intro i s t o h hr
  obtain rfl := exec_record h hr
  cases i with
  | feed b =>
    by_cases hc : s.accumulating = true ∧ s.position = 6
    · obtain ⟨ha, h6⟩ := hc
      simp [consumedRecord, feedRecord_of_complete ha h6, frameRecord, ha, h6, forwardedPacket_isSome_iff,
        csumOk_writeByte_six_iff]
    · have hne : s.accumulating = true → s.position ≠ 6 := not_and.mp hc
      simpa [consumedRecord, feedRecord_of_incomplete hne, Output.empty] using
        ⟨hne, fun ha h6 => absurd h6 (hne ha)⟩
  | nop => simp [consumedRecord, pureRecord, Output.empty]
  | csum n d => simp [consumedRecord, pureRecord]
  | build a c => simp [consumedRecord, pureRecord]
  | valid f => simp [consumedRecord, pureRecord]
  | txdone ok => simp [consumedRecord]
  | reset => simp [consumedRecord, pureRecord, Output.empty]

/-- Settles O31: FEED answers in every state, and its report says which way. -/
theorem framerNeverFails : Obligations.FramerNeverFails := by
  intro b s
  obtain ⟨t, ht⟩ := execFeed_next b s
  have hr := execFeed_report ht
  refine ⟨rfl, t, ht, fun hready => ⟨feedRecord b s, ?_⟩, fun hheld => ?_⟩
  · have hp : s.txPending = false := by simpa [inReady] using hready
    simpa [hp] using hr
  · have hp : s.txPending = true := by simpa [inReady] using hheld
    simpa [hp] using hr

end Sys2Proof.Machine
end

section
/-! PROOFS. The forwarding stage and the configuration: what an operation does to `tx_pending`, `tx_pkt` and `cfg` (R24, R25, R30,
R33). -/

namespace Sys2Proof.Machine

/-- The forwarding stage after a FEED: as it was, or with the packet of the frame the byte completed (R24, R25, R120). -/
theorem execFeed_tx_cases {b : Byte} {s t : State} (h : execFeed b s = .next t) :
    (t.txPending = s.txPending ∧ t.txPkt = s.txPkt) ∨
    (s.txPending = false ∧ s.accumulating = true ∧ s.position = 6 ∧
      forwardedPacket s.cfg (writeByte s.buf 6 b) = some t.txPkt ∧ t.txPending = true) := by
  obtain ⟨-, rfl⟩ | ⟨-, -, -, rfl⟩ | ⟨-, -, -, rfl⟩ | ⟨-, -, -, rfl⟩ | ⟨hp, ha, h6, hc⟩ | ⟨-, -, -, rfl⟩ :=
    execFeed_cases h
  · exact .inl ⟨rfl, rfl⟩
  · exact .inl ⟨rfl, rfl⟩
  · exact .inl ⟨rfl, rfl⟩
  · exact .inl ⟨rfl, rfl⟩
  · obtain ⟨-, rfl⟩ | ⟨pkt, hf, rfl⟩ := completeFrame_cases hc
    · exact .inl ⟨rfl, rfl⟩
    · exact .inr ⟨hp, ha, h6, hf, rfl⟩
  · exact .inl ⟨rfl, rfl⟩

/-- The forwarding stage after any operation: cleared by RESET or TXDONE, loaded by a completing FEED, or as it was (R24, R25). -/
theorem exec_tx_cases {i : Instr} {s t : State} (h : exec i s = .next t) :
    ((i = .reset ∨ ∃ ok, i = .txdone ok) ∧ t.txPending = false) ∨
    (∃ b, i = .feed b ∧ s.txPending = false ∧ s.accumulating = true ∧ s.position = 6 ∧
      forwardedPacket s.cfg (writeByte s.buf 6 b) = some t.txPkt ∧ t.txPending = true) ∨
    (t.txPending = s.txPending ∧ t.txPkt = s.txPkt) := by
  obtain ⟨b, rfl, hf⟩ | ⟨ok, rfl, -, rfl⟩ | ⟨rfl, rfl⟩ | ⟨o, -, rfl⟩ := exec_cases h
  · obtain hkept | hloaded := execFeed_tx_cases hf
    · exact .inr (.inr hkept)
    · exact .inr (.inl ⟨b, rfl, hloaded⟩)
  · exact .inl ⟨.inr ⟨ok, rfl⟩, rfl⟩
  · exact .inl ⟨.inl rfl, rfl⟩
  · exact .inr (.inr ⟨rfl, rfl⟩)

/-- Settles O38: the cases of `exec_tx_cases`. -/
theorem onlyThreeEventsMoveTheForwardingStage : Obligations.OnlyThreeEventsMoveTheForwardingStage := by
  intro i s t h
  obtain ⟨hreset | htxdone, -⟩ | ⟨b, rfl, hp, ha, h6, -, -⟩ | hkept := exec_tx_cases h
  · exact .inl hreset
  · exact .inr (.inl htxdone)
  · exact .inr (.inr (.inl ⟨hp, ha, h6, b, rfl⟩))
  · exact .inr (.inr (.inr hkept))

/-- A record with a request comes from a FEED that completed a forwarded frame (R124). -/
theorem consumedRecord_txReq {i : Instr} {s : State} {pkt : Bytes7} (h : (consumedRecord i s).txReq = some pkt) :
    ∃ b, i = .feed b ∧ s.accumulating = true ∧ s.position = 6 ∧
      forwardedPacket s.cfg (writeByte s.buf 6 b) = some pkt := by
  cases i with
  | feed b =>
    by_cases hc : s.accumulating = true ∧ s.position = 6
    · obtain ⟨ha, h6⟩ := hc
      exact ⟨b, rfl, ha, h6, by simpa [consumedRecord, feedRecord_of_complete ha h6] using h⟩
    · simp [consumedRecord, feedRecord_of_incomplete (not_and.mp hc), Output.empty] at h
  | nop => simp [consumedRecord, pureRecord, Output.empty] at h
  | csum n d => simp [consumedRecord, pureRecord] at h
  | build a c => simp [consumedRecord, pureRecord] at h
  | valid f => simp [consumedRecord, pureRecord] at h
  | txdone ok => simp [consumedRecord] at h
  | reset => simp [consumedRecord, pureRecord, Output.empty] at h

/-- A request is presented to the sink by the step that emits it (R33, R124). -/
theorem exec_request {i : Instr} {s t : State} {o : Output} {pkt : Bytes7} (h : exec i s = .next t)
    (hr : t.report = .consumed o) (hq : o.txReq = some pkt) : t.txPending = true ∧ t.txPkt = pkt := by
  obtain rfl := exec_record h hr
  obtain ⟨b, rfl, ha, h6, hf⟩ := consumedRecord_txReq hq
  have hp : s.txPending = false := by
    have hrep := execFeed_report h
    cases hp : s.txPending with
    | false => rfl
    | true => simp [hp, hr] at hrep
  have hnext : exec (.feed b) s = completeFrame b s := execFeed_of_position_six hp ha h6
  rw [hnext, completeFrame_of_forwarded hf] at h
  cases h
  exact ⟨rfl, rfl⟩

/-- Settles O37: a request is presented at once, and a FEED that would replace a pending packet is held. -/
theorem pendingPacketIsPresentedUnchanged : Obligations.PendingPacketIsPresentedUnchanged := by
  refine ⟨fun _ => ⟨rfl, rfl⟩, fun i s t o pkt h hr hq => exec_request h hr hq, fun i s t h hpend => ?_⟩
  obtain ⟨hcleared, -⟩ | ⟨b, rfl, hp, -⟩ | ⟨hp, hk⟩ := exec_tx_cases h
  · exact .inr hcleared
  · simp [hpend] at hp
  · exact .inl ⟨hp.trans hpend, hk⟩

/-- Whatever is forwarded of a frame with the header is valid, under either policy (R126). -/
theorem valid_of_forwarded {cfg : Config} {f pkt : Bytes7} (hf : forwardedPacket cfg f = some pkt) (h0 : f[0] = 0xAA) :
    valid pkt = true := by
  rw [forwardedPacket_eq] at hf
  split at hf
  · cases hf
  · obtain rfl := Option.some.inj hf
    rw [valid_iff, hdrOk_iff, csumOk_iff, outboundPacket_eq]
    cases cfg.forward <;> simp [h0]

theorem exec_keeps_pendingValid {i : Instr} {s t : State} (hs : s.Inv) (hv : s.PendingValid) (h : exec i s = .next t) :
    t.PendingValid := by
  intro hpend
  obtain ⟨-, hp⟩ | ⟨b, -, -, ha, -, hf, -⟩ | ⟨hp, hk⟩ := exec_tx_cases h
  · simp [hpend] at hp
  · obtain ⟨-, hframe, -⟩ := hs
    obtain ⟨-, -, h0⟩ := hframe ha
    exact valid_of_forwarded hf (by simpa [writeByte_six] using h0)
  · rw [hk]
    exact hv (hp ▸ hpend)

/-- Settles O40: the frame in progress begins with the header, so the packet it becomes is valid. -/
theorem pendingPacketStaysValid : Obligations.PendingPacketStaysValid := by
  refine ⟨nofun, fun s t hs hv h => ?_⟩
  obtain ⟨-, rfl⟩ | ⟨w, ws, i, -, -, he⟩ := step_cases h
  · exact hv
  · have hsw : (s.setWords ws).Inv := hs
    have hvw : (s.setWords ws).PendingValid := hv
    exact exec_keeps_pendingValid hsw hvw he

theorem execFeed_cfg {b : Byte} {s t : State} (h : execFeed b s = .next t) : t.cfg = s.cfg := by
  obtain ⟨-, rfl⟩ | ⟨-, -, -, rfl⟩ | ⟨-, -, -, rfl⟩ | ⟨-, -, -, rfl⟩ | ⟨-, -, -, hc⟩ | ⟨-, -, -, rfl⟩ :=
    execFeed_cases h
  · rfl
  · rfl
  · rfl
  · rfl
  · obtain ⟨-, rfl⟩ | ⟨pkt, -, rfl⟩ := completeFrame_cases hc
    · rfl
    · rfl
  · rfl

/-- No operation writes the parameters, RESET included (R141, R172). -/
theorem exec_cfg {i : Instr} {s t : State} (h : exec i s = .next t) : t.cfg = s.cfg := by
  obtain ⟨b, rfl, hf⟩ | ⟨ok, rfl, -, rfl⟩ | ⟨rfl, rfl⟩ | ⟨o, -, rfl⟩ := exec_cases h
  · exact execFeed_cfg hf
  · rfl
  · rfl
  · rfl

/-- Settles O47: a wait writes the report alone, and no operation writes the parameters. -/
theorem configurationIsFixed : Obligations.ConfigurationIsFixed := by
  intro s t h
  obtain ⟨-, rfl⟩ | ⟨w, ws, i, -, -, he⟩ := step_cases h
  · rfl
  · exact (exec_cfg he).trans (s.setWords_cfg ws)

/-- The default policies forward the frame's header and command, whatever its checksum byte is (R87, R121, R122). -/
theorem forwardedPacket_default (f : Bytes7) (b : Byte) :
    forwardedPacket { check := .ignore, forward := .commandOnly } (writeByte f 6 b) = some (buildPacket f[0] f[1]) := by
  simp [forwardedPacket_eq, outboundPacket, writeByte_six]

/-- Settles O29: both bytes complete a frame that forwards one packet, from one buffer. -/
theorem inboundChecksumByteIsIgnoredByDefault : Obligations.InboundChecksumByteIsIgnoredByDefault := by
  intro b c s hcfg hp ha h6
  have completes : ∀ d : Byte, exec (.feed d) s = .next ((s.frameTaken.setTx true (buildPacket s.buf[0] s.buf[1])).setReport
      (.consumed { frameRecord (writeByte s.buf 6 d) with txReq := some (buildPacket s.buf[0] s.buf[1]) })) := by
    intro d
    have hf := hcfg ▸ forwardedPacket_default s.buf d
    exact (execFeed_of_position_six hp ha h6).trans (completeFrame_of_forwarded hf)
  exact ⟨_, _, _, _, completes b, completes c, rfl, rfl, rfl, rfl⟩

/-- Settles O36: the answer stands in the report alone. -/
theorem failureLeavesTheStateOfSuccess : Obligations.FailureLeavesTheStateOfSuccess := by
  intro s hp
  exact ⟨_, _, execTxdone_of_pending true hp, execTxdone_of_pending false hp, rfl, rfl, rfl⟩

end Sys2Proof.Machine
end

section
/-! PROOFS. The lanes of a 7-byte sequence (R44), and the step with no word presented (R54). -/

namespace Sys2Proof.Machine

/-- Settles O7: a lane is the eight bits the rule names, and packing and unpacking are inverse. -/
theorem portLanesAreInOffsetOrder : Obligations.PortLanesAreInOffsetOrder := ⟨lane_pack, pack_lanes⟩

/-- R54: with no word presented the block waits. -/
theorem step_of_words_nil {s : State} (hw : s.words = []) : step s = wait s := by
  simp only [step, fetch_nil hw]

/-- Settles O9: waiting writes the report alone. -/
theorem stepWaitsForAWord : Obligations.StepWaitsForAWord :=
  fun s hw => (step_of_words_nil hw).trans (wait_next s)

end Sys2Proof.Machine
end

section
/-! PROOFS. The decoder and the encoder are inverse (R61 to R66): an encoded word passes both checks and its fields are the
operands; an accepted word has zero in every field its operation does not use. -/

namespace Sys2Proof.Machine

/-- A word decodes to the operation of its fields exactly when it passes both checks (R66). -/
theorem decode_eq_ok_iff {w : Word} {i : Instr} :
    decode w = .ok i ↔
      (opField w).toNat < 7 ∧ lowBits w &&& reservedMask (opField w).toNat = 0 ∧ operation w = i := by
  unfold decode
  split
  · simp
    omega
  · split <;> simp_all

theorem opcode_lt (i : Instr) : (opcode i).toNat < 7 := by cases i <;> simp [opcode]

/-- The word of every operation passes both checks (R62, R64). -/
theorem encode_passes_checks (i : Instr) : Laws.EncodedWord.Statement i := by
  cases i with
  | nop => exact Laws.EncodedWord.nop
  | feed b => exact Laws.EncodedWord.feed b
  | csum n d => exact Laws.EncodedWord.csum n d
  | build h c => exact Laws.EncodedWord.build h c
  | valid f => exact Laws.EncodedWord.valid f
  | txdone ok => exact Laws.EncodedWord.txdone ok
  | reset => exact Laws.EncodedWord.reset

/-- Lane `i` of a data field made of a list of bytes. -/
theorem lane_packList (bs : List Byte) (i : Fin 7) : lane (packList bs) i.val = bs.getD i.val 0 :=
  (lane_pack _ i).trans (by simp)

/-- The operands read from an operation's word are the operation's own (R65). -/
theorem operation_encode (i : Instr) : operation (encode i) = i := by
  cases i with
  | nop => rfl
  | feed b => simpa [operation, encode, opcode] using lane_packList [b] 0
  | csum n d => simp [operation, encode, opcode]
  | build h c => simpa [operation, encode, opcode] using And.intro (lane_packList [h, c] 0) (lane_packList [h, c] 1)
  | valid f => simp [operation, encode, opcode]
  | txdone ok => simp [operation, encode, opcode]
  | reset => rfl

theorem decode_encode (i : Instr) : decode (encode i) = .ok i := by
  obtain ⟨hop, hclear⟩ := encode_passes_checks i
  rw [decode_eq_ok_iff, hop]
  exact ⟨opcode_lt i, hclear, operation_encode i⟩

/-- Settles O1: the word passes both checks, and its operands are read back from their fields. -/
theorem decodeOfEncodeIsTheInstruction : Obligations.DecodeOfEncodeIsTheInstruction := decode_encode

/-- Bit `k` of `w[59:0]` is reserved-zero under the `op` value: the rows of R64's table. -/
def reservedBit (op k : Nat) : Bool :=
  match op with
  | 1 => 8 ≤ k
  | 2 => k == 56
  | 3 => 16 ≤ k
  | 4 => 56 ≤ k
  | 5 => k != 56
  | _ => true

/-- The masks of the decoder have the bits of the table. -/
theorem getLsbD_reservedMask : ∀ (op : Fin 7) (k : Fin 60), (reservedMask op).getLsbD k = reservedBit op k := by
  decide

/-- The length bits are reserved under every `op` but CSUM's (R64). -/
theorem reservedBit_len : ∀ (op : Fin 7) (k : Fin 60), op ≠ 2 → 57 ≤ k → reservedBit op k = true := by decide

/-- The `ok` bit is reserved under every `op` but TXDONE's (R64). -/
theorem reservedBit_ok : ∀ op : Fin 7, op ≠ 5 → reservedBit op 56 = true := by decide

theorem getElem_unpack (d : BitVec 56) (i : Fin 7) : (unpack d)[i] = lane d i.val := by
  fin_cases i <;> rfl

theorem packList_nil : packList [] = 0 := by decide

/-- The operation of a word whose `op` is in the table, row by row (R62). -/
theorem operation_cases {w : Word} (hop : (opField w).toNat < 7) :
    (opField w = 0 ∧ operation w = .nop) ∨
    (opField w = 1 ∧ operation w = .feed (lane (dataField w) 0)) ∨
    (opField w = 2 ∧ operation w = .csum (lenField w) (unpack (dataField w))) ∨
    (opField w = 3 ∧ operation w = .build (lane (dataField w) 0) (lane (dataField w) 1)) ∨
    (opField w = 4 ∧ operation w = .valid (unpack (dataField w))) ∨
    (opField w = 5 ∧ operation w = .txdone (okField w)) ∨
    (opField w = 6 ∧ operation w = .reset) := by
  unfold operation
  generalize opField w = op at hop
  interval_cases h : op.toNat <;> simp [← BitVec.toNat_inj, h]

/-- A word is the assembly of what its four fields are (R61). -/
theorem assembleWord_eq {w : Word} {op : BitVec 4} {len : BitVec 3} {ok : Bool} {data : BitVec 56} (hop : opField w = op)
    (hlen : lenField w = len) (hok : okField w = ok) (hdata : dataField w = data) : assembleWord op len ok data = w := by
  subst hop hlen hok hdata
  exact assembleWord_fields w

section

variable {w : Word} (hop : (opField w).toNat < 7) (hclear : lowBits w &&& reservedMask (opField w).toNat = 0)

include hop hclear

/-- The reserved-zero bits of an accepted word are 0. -/
theorem getLsbD_eq_false_of_reserved {k : Nat} (hk : k < 60) (hres : reservedBit (opField w).toNat k = true) :
    w.getLsbD k = false := by
  have hmask := (getLsbD_reservedMask ⟨_, hop⟩ ⟨k, hk⟩).trans hres
  have hbit := congrArg (BitVec.getLsbD · k) hclear
  simp only [BitVec.getLsbD_and, hmask, lowBits, BitVec.getLsbD_extractLsb'] at hbit
  simpa [hk] using hbit

theorem lenField_of_accepted (hne : opField w ≠ 2) : lenField w = 0 := by
  have hne' : (⟨_, hop⟩ : Fin 7) ≠ 2 := fun h => hne (BitVec.eq_of_toNat_eq (Fin.mk.inj h))
  apply BitVec.eq_of_getLsbD_eq
  intro j hj
  have hk : 57 + j < 60 := by omega
  have hres := reservedBit_len ⟨_, hop⟩ ⟨57 + j, hk⟩ hne' (Nat.le_add_right 57 j)
  simp [lenField, hj, getLsbD_eq_false_of_reserved hop hclear hk hres]

theorem okField_of_accepted (hne : opField w ≠ 5) : okField w = false := by
  have hne' : (⟨_, hop⟩ : Fin 7) ≠ 5 := fun h => hne (BitVec.eq_of_toNat_eq (Fin.mk.inj h))
  exact getLsbD_eq_false_of_reserved hop hclear (by decide) (reservedBit_ok _ hne')

/-- A data field whose bits from lane `n` on are reserved is made of the lanes below. -/
theorem dataField_of_accepted (n : Nat) (hres : ∀ k, 8 * n ≤ k → k < 56 → reservedBit (opField w).toNat k = true) :
    dataField w = packList ((List.range n).map (lane (dataField w))) := by
  have habove : ∀ i : Fin 7, n ≤ i.val → lane (dataField w) i.val = 0 := by
    intro i hi
    apply BitVec.eq_of_getLsbD_eq
    intro j hj
    have hk : 8 * i.val + j < 56 := by omega
    have hbit := getLsbD_eq_false_of_reserved hop hclear (Nat.lt_trans hk (by decide)) (hres _ (by omega) hk)
    simp [getLsbD_lane, dataField, hbit]
  refine (pack_lanes (dataField w)).symm.trans (congrArg pack (Vector.ext fun i hi => (getElem_unpack _ ⟨i, hi⟩).trans ?_))
  by_cases hin : i < n
  · simp [hin]
  · simp [hin, habove ⟨i, hi⟩ (Nat.le_of_not_lt hin)]

/-- An accepted word is the word of the operation read from its fields: the fields the operation does not use are 0. -/
theorem encode_operation : encode (operation w) = w := by
  have hlen := lenField_of_accepted hop hclear
  have hok := okField_of_accepted hop hclear
  have hdata := dataField_of_accepted hop hclear
  obtain ⟨h, hi⟩ | ⟨h, hi⟩ | ⟨h, hi⟩ | ⟨h, hi⟩ | ⟨h, hi⟩ | ⟨h, hi⟩ | ⟨h, hi⟩ := operation_cases hop
  all_goals
    rw [hi]
    simp only [h] at hlen hok hdata
  · exact assembleWord_eq h (hlen (by decide)) (hok (by decide)) ((hdata 0 fun _ _ _ => rfl).trans packList_nil)
  · exact assembleWord_eq h (hlen (by decide)) (hok (by decide)) (hdata 1 fun _ hk _ => decide_eq_true hk)
  · exact assembleWord_eq h rfl (hok (by decide)) (pack_lanes _).symm
  · exact assembleWord_eq h (hlen (by decide)) (hok (by decide)) (hdata 2 fun _ hk _ => decide_eq_true hk)
  · exact assembleWord_eq h (hlen (by decide)) (hok (by decide)) (pack_lanes _).symm
  · have hbits : ∀ k, 8 * 0 ≤ k → k < 56 → reservedBit (5 : BitVec 4).toNat k = true :=
      fun k _ hk => bne_iff_ne.mpr (Nat.ne_of_lt hk)
    exact assembleWord_eq h (hlen (by decide)) rfl ((hdata 0 hbits).trans packList_nil)
  · exact assembleWord_eq h (hlen (by decide)) (hok (by decide)) ((hdata 0 fun _ _ _ => rfl).trans packList_nil)

end

/-- Settles O2: both checks pass, so no field of the word is lost. -/
theorem encodeOfDecodeIsTheWord : Obligations.EncodeOfDecodeIsTheWord := by
  intro w i h
  obtain ⟨hop, hclear, rfl⟩ := decode_eq_ok_iff.mp h
  exact encode_operation hop hclear

/-- Settles O4: the decoder run on each word. -/
theorem decodeSampleWords : Obligations.DecodeSampleWords := by
  unfold Obligations.DecodeSampleWords
  decide

/-- A lane of the data field is the same bits of the word (R44, R61). -/
theorem lane_dataField (w : Word) (i : Fin 7) : lane (dataField w) i.val = w.extractLsb' (8 * i.val) 8 := by
  apply BitVec.eq_of_getLsbD_eq
  intro j hj
  have hk : 8 * i.val + j < 56 := by omega
  simp [lane, dataField, hj, hk]

/-- Settles O5: each operand of the operation read is a field, and a lane of the data field is a byte of the word. -/
theorem operandsAreTheFieldsAsTheyStand : Obligations.OperandsAreTheFieldsAsTheyStand := by
  intro w i h
  obtain ⟨hop, -, rfl⟩ := decode_eq_ok_iff.mp h
  obtain ⟨-, hi⟩ | ⟨-, hi⟩ | ⟨-, hi⟩ | ⟨-, hi⟩ | ⟨-, hi⟩ | ⟨-, hi⟩ | ⟨-, hi⟩ := operation_cases hop
  all_goals rw [hi]
  · trivial
  · exact lane_dataField w 0
  · exact ⟨rfl, fun k => (getElem_unpack _ k).trans (lane_dataField w k)⟩
  · exact ⟨lane_dataField w 0, lane_dataField w 1⟩
  · exact fun k => (getElem_unpack _ k).trans (lane_dataField w k)
  · rfl
  · trivial

end Sys2Proof.Machine
end

section
/-! PROOFS. Words and their fields as numbers (R61, R64). -/

namespace Sys2Proof.Machine

theorem opField_toNat (w : Word) : (opField w).toNat = w.toNat / 2 ^ 60 := by
  have := w.isLt
  simp only [opField, BitVec.extractLsb'_toNat, Nat.shiftRight_eq_div_pow]
  omega

theorem lowBits_toNat (w : Word) : (lowBits w).toNat = w.toNat % 2 ^ 60 := by
  simp [lowBits]

/-- A word as a number is the sum of its fields in their places (R61). -/
theorem toNat_eq_fields (w : Word) :
    w.toNat = (opField w).toNat * 2 ^ 60 + (lenField w).toNat * 2 ^ 57 + (okField w).toNat * 2 ^ 56 +
      (dataField w).toNat := by
  have hok : (okField w).toNat = w.toNat / 2 ^ 56 % 2 := Nat.toNat_testBit _ _
  rw [opField_toNat, hok]
  simp only [lenField, dataField, BitVec.extractLsb'_toNat, Nat.shiftRight_eq_div_pow]
  omega

theorem assembleWord_toNat (op : BitVec 4) (len : BitVec 3) (ok : Bool) (data : BitVec 56) :
    (assembleWord op len ok data).toNat = op.toNat * 2 ^ 60 + len.toNat * 2 ^ 57 + ok.toNat * 2 ^ 56 + data.toNat := by
  simpa using toNat_eq_fields (assembleWord op len ok data)

/-- A 56-bit vector as a number is the sum of its lanes in their places (R44). -/
theorem toNat_eq_lanes (d : BitVec 56) :
    d.toNat = (lane d 0).toNat + (lane d 1).toNat * 2 ^ 8 + (lane d 2).toNat * 2 ^ 16 + (lane d 3).toNat * 2 ^ 24 +
      (lane d 4).toNat * 2 ^ 32 + (lane d 5).toNat * 2 ^ 40 + (lane d 6).toNat * 2 ^ 48 := by
  have := d.isLt
  simp only [lane, BitVec.extractLsb'_toNat, Nat.shiftRight_eq_div_pow]
  omega

end Sys2Proof.Machine
end

section
/-! PROOFS. The decoder's checks and the encoded words as numbers (R61, R63, R64). -/

namespace Sys2Proof.Machine

theorem decode_of_reserved_op {w : Word} (h : 7 ≤ w.toNat / 2 ^ 60) : decode w = .illegalOp :=
  if_pos ((opField_toNat w).symm ▸ h)

/-- The masks as the numbers of R64's table. -/
theorem reservedMask_toNat : ∀ op : Fin 7, (reservedMask op).toNat =
    [0x0FFFFFFFFFFFFFFF, 0x0FFFFFFFFFFFFF00, 0x0100000000000000, 0x0FFFFFFFFFFF0000, 0x0F00000000000000,
      0x0EFFFFFFFFFFFFFF, 0x0FFFFFFFFFFFFFFF].getD op 0 := by decide

/-- The reserved-zero bits of a word with an `op` of the table, as a number. -/
theorem lowBits_and_reservedMask_toNat {w : Word} (hop : w.toNat / 2 ^ 60 < 7) :
    (lowBits w &&& reservedMask (opField w).toNat).toNat =
      w.toNat % 2 ^ 60 &&&
        [0x0FFFFFFFFFFFFFFF, 0x0FFFFFFFFFFFFF00, 0x0100000000000000, 0x0FFFFFFFFFFF0000, 0x0F00000000000000,
          0x0EFFFFFFFFFFFFFF, 0x0FFFFFFFFFFFFFFF].getD (w.toNat / 2 ^ 60) 0 := by
  rw [BitVec.toNat_and, lowBits_toNat, opField_toNat, reservedMask_toNat ⟨_, hop⟩]

theorem decode_of_reserved_bits {w : Word} (hop : (opField w).toNat < 7)
    (h : lowBits w &&& reservedMask (opField w).toNat ≠ 0) : decode w = .reservedField := by
  rw [decode, if_neg (Nat.not_le.mpr hop), if_pos h]

theorem opcode_operation {w : Word} (hop : (opField w).toNat < 7) : opcode (operation w) = opField w := by
  obtain ⟨h, hi⟩ | ⟨h, hi⟩ | ⟨h, hi⟩ | ⟨h, hi⟩ | ⟨h, hi⟩ | ⟨h, hi⟩ | ⟨h, hi⟩ := operation_cases hop
  all_goals
    rw [h, hi]
    rfl

/-- Settles O3: the two checks as numbers, and the operation of a word that passes both. -/
theorem decoderClassifiesEveryWord : Obligations.DecoderClassifiesEveryWord := by
  intro w op reserved
  have hopField : (opField w).toNat = op := opField_toNat w
  have hmask : op < 7 → (lowBits w &&& reservedMask (opField w).toNat).toNat = reserved :=
    lowBits_and_reservedMask_toNat
  refine ⟨decode_of_reserved_op, fun hop hres => ?_, fun hop hres => ?_⟩
  · refine decode_of_reserved_bits (hopField ▸ hop) fun hzero => hres ?_
    rw [← hmask hop, hzero]
    rfl
  · have hclear : lowBits w &&& reservedMask (opField w).toNat = 0 := BitVec.eq_of_toNat_eq ((hmask hop).trans hres)
    have hlt : (opField w).toNat < 7 := hopField ▸ hop
    exact ⟨operation w, decode_eq_ok_iff.mpr ⟨hlt, hclear, rfl⟩, by rw [opcode_operation hlt, hopField]⟩

/-- Settles O10: the decoder's first check fails before any state is looked at. -/
theorem reservedOpFaults : Obligations.ReservedOpFaults := by
  intro s w ws hw hop
  refine ⟨?_, rfl, rfl⟩
  simp only [step, fetch_cons hw, decode_of_reserved_op hop, raise_fault]

/-- Packed bytes as a number: their sum in their lanes (R44). -/
theorem pack_toNat (d : Bytes7) :
    (pack d).toNat = d[0].toNat + d[1].toNat * 2 ^ 8 + d[2].toNat * 2 ^ 16 + d[3].toNat * 2 ^ 24 +
      d[4].toNat * 2 ^ 32 + d[5].toNat * 2 ^ 40 + d[6].toNat * 2 ^ 48 := by
  conv => rhs; rw [← unpack_pack d]
  exact toNat_eq_lanes (pack d)

/-- Settles O6: each word is the assembly of its fields, and each data field the packing of its bytes. -/
theorem encodedWordIsTheSumOfItsFields : Obligations.EncodedWordIsTheSumOfItsFields := by
  refine ⟨rfl, fun b => ?_, fun n d => ?_, fun h c => ?_, fun f => ?_, fun ok => ?_, rfl⟩
  · simp [encode, opcode, assembleWord_toNat, packList_one, pack_toNat]
  · simp [encode, opcode, assembleWord_toNat, pack_toNat]
  · simp [encode, opcode, assembleWord_toNat, packList_two, pack_toNat]
    omega
  · simp [encode, opcode, assembleWord_toNat, pack_toNat]
  · simp [encode, opcode, assembleWord_toNat]

/-- Settles O19: the flags of the frame, bit by bit. -/
theorem validEmitsTheFlags : Obligations.ValidEmitsTheFlags := by
  intro f s
  obtain ⟨hcsum, hhdr, hvalid⟩ := validatorFlags_bits f
  refine ⟨validatorFlags f, rfl, ?_, ?_, ?_⟩
  · rw [hcsum, csumOk_iff]
  · rw [hhdr, hdrOk_iff]
  · rw [hvalid, hcsum, hhdr, valid_iff, and_comm]

end Sys2Proof.Machine
end

section
/-! PROOFS. The assembler (R69, R70): the operands a form accepts are the numbers of bytes, in the form's count. -/

namespace Sys2Proof.Machine

/-- `n` operands that all fit a byte are the numbers of `n` bytes. -/
theorem length_and_allBytes_iff {ns : List Nat} {n : Nat} :
    (ns.length == n && allBytes ns) = true ↔ ∃ bs : List Byte, bs.length = n ∧ ns = bs.map BitVec.toNat := by
  rw [Bool.and_eq_true, beq_iff_eq, allBytes_iff]
  constructor
  · rintro ⟨hlen, bs, rfl⟩
    exact ⟨bs, by simpa using hlen, rfl⟩
  · rintro ⟨bs, hlen, rfl⟩
    exact ⟨by simpa using hlen, bs, rfl⟩

/-- Lanes read from the numbers of bytes are those bytes, and zero where there is none. -/
theorem asLanes_map_toNat (bs : List Byte) :
    asLanes (bs.map BitVec.toNat) = Vector.ofFn fun i : Fin 7 => bs.getD i.val 0 := by
  refine congrArg Vector.ofFn (funext fun i => ?_)
  have hget : (bs.map BitVec.toNat).getD i.val 0 = (bs.getD i.val 0).toNat :=
    List.getD_map bs 0 BitVec.toNat
  rw [hget, asByte_toNat]

theorem asLanes_toList (f : Bytes7) : asLanes (f.toList.map BitVec.toNat) = f := by
  rw [asLanes_map_toNat]
  ext i hi : 1
  simp

theorem assembleLine_nop (ns : List Nat) (is : List Instr) :
    assembleLine ⟨.nop, ns⟩ = some is ↔ ns = [] ∧ is = [.nop] := by
  rw [assembleLine_some]
  exact and_congr List.isEmpty_iff eq_comm

theorem assembleLine_reset (ns : List Nat) (is : List Instr) :
    assembleLine ⟨.reset, ns⟩ = some is ↔ ns = [] ∧ is = [.reset] := by
  rw [assembleLine_some]
  exact and_congr List.isEmpty_iff eq_comm

theorem assembleLine_feed (ns : List Nat) (is : List Instr) :
    assembleLine ⟨.feed, ns⟩ = some is ↔ ∃ b : Byte, ns = [b.toNat] ∧ is = [.feed b] := by
  rw [assembleLine_some]
  constructor
  · rintro ⟨hwf, rfl⟩
    obtain ⟨bs, hlen, rfl⟩ := length_and_allBytes_iff.mp hwf
    obtain ⟨b, rfl⟩ := List.length_eq_one_iff.mp hlen
    exact ⟨b, rfl, by simp [expandLine]⟩
  · rintro ⟨b, rfl, rfl⟩
    exact ⟨length_and_allBytes_iff.mpr ⟨[b], rfl, rfl⟩, by simp [expandLine]⟩

theorem assembleLine_build (ns : List Nat) (is : List Instr) :
    assembleLine ⟨.build, ns⟩ = some is ↔ ∃ h c : Byte, ns = [h.toNat, c.toNat] ∧ is = [.build h c] := by
  rw [assembleLine_some]
  constructor
  · rintro ⟨hwf, rfl⟩
    obtain ⟨bs, hlen, rfl⟩ := length_and_allBytes_iff.mp hwf
    obtain ⟨h, c, rfl⟩ := List.length_eq_two.mp hlen
    exact ⟨h, c, rfl, by simp [expandLine]⟩
  · rintro ⟨h, c, rfl, rfl⟩
    exact ⟨length_and_allBytes_iff.mpr ⟨[h, c], rfl, rfl⟩, by simp [expandLine]⟩

theorem assembleLine_valid (ns : List Nat) (is : List Instr) :
    assembleLine ⟨.valid, ns⟩ = some is ↔ ∃ f : Bytes7, ns = f.toList.map BitVec.toNat ∧ is = [.valid f] := by
  rw [assembleLine_some]
  constructor
  · rintro ⟨hwf, rfl⟩
    obtain ⟨bs, hlen, rfl⟩ := length_and_allBytes_iff.mp hwf
    have hf : (⟨bs.toArray, hlen⟩ : Bytes7).toList = bs := rfl
    exact ⟨⟨bs.toArray, hlen⟩, rfl, congrArg (fun f => [Instr.valid f]) (asLanes_toList ⟨bs.toArray, hlen⟩)⟩
  · rintro ⟨f, rfl, rfl⟩
    exact ⟨length_and_allBytes_iff.mpr ⟨f.toList, f.length_toList, rfl⟩, by simp only [expandLine, asLanes_toList]⟩

theorem assembleLine_txdone (ns : List Nat) (is : List Instr) :
    assembleLine ⟨.txdone, ns⟩ = some is ↔ ∃ ok : Bool, ns = [ok.toNat] ∧ is = [.txdone ok] := by
  rw [assembleLine_some]
  constructor
  · rintro ⟨hwf, rfl⟩
    simp only [AsmLine.wellFormed, Bool.and_eq_true, beq_iff_eq] at hwf
    obtain ⟨hlen, hall⟩ := hwf
    obtain ⟨n, rfl⟩ := List.length_eq_one_iff.mp hlen
    obtain rfl | rfl : n = 0 ∨ n = 1 := by
      simp at hall
      omega
    · exact ⟨false, rfl, rfl⟩
    · exact ⟨true, rfl, rfl⟩
  · rintro ⟨ok, rfl, rfl⟩
    cases ok <;> exact ⟨rfl, rfl⟩

/-- CSUM takes a count that fits its field and as many bytes (R69). -/
theorem csum_wellFormed_iff {n : Nat} {ms : List Nat} :
    AsmLine.wellFormed ⟨.csum, n :: ms⟩ = true ↔
      n ≤ 7 ∧ ∃ bs : List Byte, bs.length = n ∧ ms = bs.map BitVec.toNat := by
  simp only [← length_and_allBytes_iff, AsmLine.wellFormed, Bool.and_assoc, Bool.and_eq_true, decide_eq_true_eq]

theorem assembleLine_csum (ns : List Nat) (is : List Instr) :
    assembleLine ⟨.csum, ns⟩ = some is ↔
      ∃ (n : BitVec 3) (bs : List Byte), ns = n.toNat :: bs.map BitVec.toNat ∧ bs.length = n.toNat ∧
        is = [.csum n (Vector.ofFn fun i : Fin 7 => bs.getD i.val 0)] := by
  rw [assembleLine_some]
  constructor
  · rintro ⟨hwf, rfl⟩
    cases ns with
    | nil => cases hwf
    | cons n ms =>
      rw [csum_wellFormed_iff] at hwf
      obtain ⟨hn, bs, hlen, rfl⟩ := hwf
      have hnum : (BitVec.ofNat 3 n).toNat = n := Nat.mod_eq_of_lt (Nat.lt_succ_of_le hn)
      exact ⟨BitVec.ofNat 3 n, bs, by rw [hnum], by rw [hnum, hlen], by simp [expandLine, asLanes_map_toNat]⟩
  · rintro ⟨n, bs, rfl, hlen, rfl⟩
    have hn : n.toNat ≤ 7 := Nat.le_of_lt_succ n.isLt
    exact ⟨csum_wellFormed_iff.mpr ⟨hn, bs, hlen, rfl⟩, by simp [expandLine, asLanes_map_toNat]⟩

/-- Settles O58: one form after the other. -/
theorem assemblerAcceptsExactlyTheForms : Obligations.AssemblerAcceptsExactlyTheForms :=
  ⟨assembleLine_nop, assembleLine_feed, assembleLine_csum, assembleLine_build, assembleLine_valid, assembleLine_txdone,
    assembleLine_reset⟩

theorem sendcmdBytes_eq_buildPacket (c : Byte) : sendcmdBytes c = (buildPacket 0xAA c).toList := by
  rw [buildPacket_eq]
  rfl

/-- Settles O59: the operands of both forms are bytes, and the bytes of SENDCMD are those of the built packet. -/
theorem pseudoOperationsExpandToFeeds : Obligations.PseudoOperationsExpandToFeeds := by
  refine ⟨fun bs hne => ?_, fun c => ⟨?_, sendcmdBytes_eq_buildPacket c⟩⟩
  · rw [assembleLine_some]
    have hall : allBytes (bs.map BitVec.toNat) = true := allBytes_iff.mpr ⟨bs, rfl⟩
    exact ⟨by simp [AsmLine.wellFormed, hall, hne], by simp [expandLine, Function.comp_def]⟩
  · rw [assembleLine_some, ← sendcmdBytes_eq_buildPacket]
    exact ⟨length_and_allBytes_iff.mpr ⟨[c], rfl, rfl⟩, by simp [expandLine]⟩

/-- Settles O57: the assembler run on each text. -/
theorem assemblerExamples : Obligations.AssemblerExamples := by
  unfold Obligations.AssemblerExamples
  decide

end Sys2Proof.Machine
end

section
/-! PROOFS. A run of FEEDs through one frame (R102, R104, R105): the bytes collected so far are the partial frame. -/

namespace Sys2Proof.Machine

/-- The step on the word of an operation runs the operation (R14, R66). -/
theorem step_encode {s : State} {i : Instr} {ws : List Word} (hw : s.words = encode i :: ws) :
    step s = exec i (s.setWords ws) := step_of_decode_ok hw (decode_encode i)

/-- A frame is in progress with `p` as its accepted bytes (R23), and a FEED is not held. -/
def State.Collecting (s : State) (p : List Byte) : Prop :=
  s.txPending = false ∧ s.accumulating = true ∧ s.position.toNat = p.length ∧ s.partialFrame = p

/-- A byte written at index `n` follows the `n` bytes before it. -/
theorem take_succ_writeByte (f : Bytes7) {n : Nat} (hn : n < 7) (b : Byte) :
    (writeByte f n b).toList.take (n + 1) = f.toList.take n ++ [b] := by
  have hset : (writeByte f n b).toList = f.toList.set n b := by simp [writeByte]
  rw [hset, List.take_succ_eq_append_getElem (by simpa using hn), List.take_set_of_le (Nat.le_refl n), List.getElem_set_self]

/-- The header starts a frame that holds the header (R102). -/
theorem step_feed_header {s : State} {ws : List Word} (hp : s.txPending = false) (ha : s.accumulating = false)
    (hw : s.words = encode (.feed header) :: ws) :
    ∃ t, step s = .next t ∧ t.Collecting [header] ∧ t.words = ws := by
  refine ⟨((s.setWords ws).setFramer true 1 (writeByte s.buf 0 header)).setReport (.consumed Output.empty), ?_,
    ⟨hp, rfl, rfl, take_succ_writeByte s.buf (by decide) header⟩, rfl⟩
  rw [step_encode hw]
  simp [exec, execFeed, hp, ha, feedIdle]

/-- A byte accepted before the seventh is appended to the frame in progress (R104). -/
theorem step_feed_append {b : Byte} {s : State} {p : List Byte} {ws : List Word} (hs : s.Collecting p)
    (hlen : p.length < 6) (hw : s.words = encode (.feed b) :: ws) :
    ∃ t, step s = .next t ∧ t.Collecting (p ++ [b]) ∧ t.words = ws := by
  obtain ⟨hp, ha, hpos, hpart⟩ := hs
  have hlt : s.position.toNat < 6 := hpos ▸ hlen
  have hsucc : (s.position + 1).toNat = s.position.toNat + 1 := toNat_position_succ hlt
  refine ⟨((s.setWords ws).setFramer true (s.position + 1) (writeByte s.buf s.position.toNat b)).setReport
    (.consumed Output.empty), ?_, ⟨hp, rfl, ?_, ?_⟩, rfl⟩
  · have hlt' : (s.setWords ws).position.toNat < 6 := hlt
    rw [step_encode hw]
    simp [exec, execFeed, hp, ha, feedAccumulating_of_lt hlt']
  · rw [List.length_append, ← hpos]
    exact hsucc
  · rw [← hpart]
    exact (congrArg (List.take · _) hsucc).trans (take_succ_writeByte s.buf (by omega) b)

/-- A run of FEEDs that stays below the seventh byte appends them all to the frame in progress. -/
theorem run_feeds_append (k : Nat) {ws : List Word} (bs : List Byte) {s : State} {p : List Byte} (hs : s.Collecting p)
    (hlen : p.length + bs.length ≤ 6) (hw : s.words = bs.map (fun b => encode (.feed b)) ++ ws) :
    ∃ t, Sys2Proof.core.run (k + bs.length) s = Sys2Proof.core.run k t ∧ t.Collecting (p ++ bs) ∧ t.words = ws := by
  induction bs generalizing s p with
  | nil => exact ⟨s, rfl, by simpa using hs, hw⟩
  | cons b bs ih =>
    rw [List.length_cons] at hlen
    obtain ⟨u, hu, hcol, huw⟩ := step_feed_append hs (by omega) hw
    obtain ⟨t, hrun, ht, htw⟩ := ih hcol (by rw [List.length_append, List.length_singleton]; omega) huw
    exact ⟨t, (run_succ hu).trans hrun, by simpa using ht, htw⟩

/-- The seventh byte completes the frame of the bytes collected, and what is forwarded of it is requested (R105, R124). -/
theorem step_feed_complete {b : Byte} {s : State} {p : List Byte} {ws : List Word} {f pkt : Bytes7} (hs : s.Collecting p)
    (hf : f.toList = p ++ [b]) (hpkt : forwardedPacket s.cfg f = some pkt) (hw : s.words = encode (.feed b) :: ws) :
    step s = .next (((s.setWords ws).frameTaken.setTx true pkt).setReport
      (.consumed { frameRecord f with txReq := some pkt })) := by
  obtain ⟨hp, ha, hpos, hpart⟩ := hs
  have hlen : p.length = 6 := by simpa using (congrArg List.length hf).symm
  have h6 : s.position = 6 := BitVec.eq_of_toNat_eq (hpos.trans hlen)
  have hframe : writeByte s.buf 6 b = f := by
    have htake := take_succ_writeByte s.buf (show 6 < 7 by decide) b
    rw [← Vector.toList_inj, hf, ← hpart, State.partialFrame, hpos, hlen, ← htake]
    exact (List.take_of_length_le (by simp)).symm
  subst hframe
  have hsix : execFeed b (s.setWords ws) = completeFrame b (s.setWords ws) := execFeed_of_position_six hp ha h6
  exact (step_encode hw).trans (hsix.trans (completeFrame_of_forwarded hpkt))

/-- A valid frame has all three flags (R72). -/
theorem validatorFlags_of_valid {f : Bytes7} (h : valid f = true) : validatorFlags f = 7 := by
  obtain ⟨hhdr, hcsum⟩ := (valid_iff f).mp h
  simp [validatorFlags, h, hhdr, hcsum]

theorem csumOk_buildPacket (h c : Byte) : csumOk (buildPacket h c) = true := by
  rw [csumOk_iff, buildPacket_eq]
  simp

/-- A built packet with the header marker is a valid frame (R92). -/
theorem valid_buildPacket (c : Byte) : valid (buildPacket 0xAA c) = true := by
  rw [valid_iff, hdrOk_iff]
  refine ⟨?_, csumOk_buildPacket _ _⟩
  rw [buildPacket_eq]
  rfl

/-- A built packet is forwarded as it stands, under every configuration (R121 to R123). -/
theorem forwardedPacket_buildPacket (cfg : Config) (h c : Byte) :
    forwardedPacket cfg (buildPacket h c) = some (buildPacket h c) := by
  have hout : outboundPacket cfg.forward (buildPacket h c) = buildPacket h c := by
    rw [outboundPacket_eq, buildPacket_eq]
    cases cfg.forward <;> simp
  simp [forwardedPacket_eq, csumOk_buildPacket, hout]

/-- Settles O55: the header starts the frame, five bytes are appended, and the seventh completes the built packet of the command,
which is valid and forwarded as it stands. -/
theorem commandFrameReachesTheSink : Obligations.CommandFrameReachesTheSink := by
  intro c ws s hp ha hw
  obtain ⟨t₁, hstep₁, hcol₁, hw₁⟩ := step_feed_header hp ha hw
  obtain ⟨t₆, hrun, hcol₆, hw₆⟩ :=
    run_feeds_append 1 (ws := encode (.feed (0xAA ^^^ c)) :: ws) [c, 0, 0, 0, 0] hcol₁ (by simp) hw₁
  have hstep₆ := step_feed_complete hcol₆ (sendcmdBytes_eq_buildPacket c).symm
    (forwardedPacket_buildPacket t₆.cfg 0xAA c) hw₆
  refine ⟨_, (run_succ hstep₁).trans (hrun.trans (run_succ hstep₆)), rfl, rfl, buildPacket_eq 0xAA c, ?_⟩
  rw [← validatorFlags_of_valid (valid_buildPacket c)]
  rfl

end Sys2Proof.Machine
end

section
/-! PROOFS. The checksum's laws (R81 to R84): one byte a turn, order and concatenation, and the check of byte 6. -/

namespace Sys2Proof.Machine

/-- R81: one turn of the loop takes in byte `n`. -/
theorem checksum_succ (d : Bytes7) {n : Nat} (hn : n < 7) : checksum d (n + 1) = checksum d n ^^^ d[n] := by
  rw [checksum_eq_fold, List.take_succ_eq_append_getElem (by simpa using hn), List.foldl_append, ← checksum_eq_fold]
  rfl

/-- R83: the checksums of two runs of bytes combine to the checksum of the one after the other. -/
theorem foldl_xor_append (xs ys : List Byte) :
    (xs ++ ys).foldl (· ^^^ ·) 0 = xs.foldl (· ^^^ ·) 0 ^^^ ys.foldl (· ^^^ ·) 0 := by
  rw [List.foldl_append, ← List.foldl_assoc (op := fun x y : Byte => x ^^^ y)]
  simp

/-- Frames that agree below `n` have the same first `n` bytes. -/
theorem toList_take_congr {d e : Bytes7} {n : Nat} (h : ∀ i : Fin 7, i.val < n → d[i] = e[i]) :
    d.toList.take n = e.toList.take n := by
  refine List.ext_getElem (by simp) fun i hd _ => ?_
  obtain ⟨hn, h7⟩ : i < n ∧ i < 7 := by simpa using hd
  simpa using h ⟨i, h7⟩ hn

/-- R82: the checksum, with the bytes read by their index. -/
theorem foldl_range_xor_eq_checksum (d : Bytes7) {n : Nat} (hn : n ≤ 7) :
    (List.range n).foldl (fun acc i => acc ^^^ d.toList.getD i 0) 0 = checksum d n := by
  induction n with
  | zero => rfl
  | succ n ih =>
    have hbyte : d.toList.getD n 0 = d[n] := List.getD_eq_getElem _ _ (by simpa using hn)
    rw [List.range_succ, List.foldl_append, ih (Nat.le_of_succ_le hn), checksum_succ d hn, ← hbyte]
    rfl

/-- Settles O16: the fold of `^` does not see the order of the bytes and splits over an append. -/
theorem checksumLaws : Obligations.ChecksumLaws := by
  refine ⟨fun d e n _ hperm => ?_, fun d a b j n _ _ happend => ?_, checksum_six⟩
  · exact hperm.foldl_eq (f := fun x y : Byte => x ^^^ y) 0
  · simp only [checksum_eq_fold]
    rw [← foldl_xor_append, happend]

/-- Settles O17: byte 6 is the checksum of the others exactly when it cancels against it in the last turn. -/
theorem wellFormedMeansTheBytesCancel : Obligations.WellFormedMeansTheBytesCancel := by
  refine fun f => ⟨csumOk_iff f, ?_⟩
  have hlast : checksum f 7 = checksum f 6 ^^^ f[6] := checksum_succ f (by decide)
  rw [csumOk, beq_iff_eq, hlast, eq_comm]
  exact BitVec.xor_eq_zero_iff.symm

/-- Settles O15: each turn takes in its byte, and only the first `n` bytes are folded. -/
theorem checksumAccumulatesByteByByte : Obligations.ChecksumAccumulatesByteByByte := by
  refine ⟨fun _ => rfl, fun d i => checksum_succ d i.isLt, fun d e n _ h => ?_⟩
  rw [checksum_eq_fold, checksum_eq_fold, toList_take_congr h]

/-- Settles O18: CSUM emits `checksum` of its count, which fits the seven lanes. -/
theorem csumEmitsTheChecksum : Obligations.CsumEmitsTheChecksum := by
  intro n d s
  have hn : n.toNat ≤ 7 := Nat.le_of_lt_succ n.isLt
  rw [foldl_range_xor_eq_checksum d hn]
  rfl

end Sys2Proof.Machine
end

section
/-! PROOFS. The Packet Builder (R90 to R92): what BUILD answers, and the fixed bytes of a built packet. -/

namespace Sys2Proof.Machine

/-- BUILD only reports the built packet (R91). -/
theorem exec_build (h c : Byte) (s : State) :
    exec (.build h c) s = .next (s.setReport (.consumed { packet := some (buildPacket h c) })) := emit_next _ s

/-- A built packet is its six fixed bytes with their checksum in byte 6 (R90). -/
theorem buildPacket_eq_checksum (h c : Byte) :
    buildPacket h c = #v[h, c, 0, 0, 0, 0, checksum #v[h, c, 0, 0, 0, 0, 0] 6] := writeByte_six _ _

/-- Settles O20: BUILD reports the built packet, whose byte 6 is the checksum of the six before it. -/
theorem buildEmitsThePacket : Obligations.BuildEmitsThePacket := by
  intro h c s
  rw [exec_build, buildPacket_eq_checksum]
  rfl

/-- Settles O21: byte 6 of a built packet checks, and the zero bytes are read off its layout. -/
theorem builtPacketsAreWellFormed : Obligations.BuiltPacketsAreWellFormed := by
  refine fun h c => ⟨csumOk_buildPacket h c, ?_⟩
  rw [buildPacket_eq]
  exact ⟨rfl, rfl, rfl, rfl⟩

end Sys2Proof.Machine
end

section
/-! PROOFS. FEED case by case (R100 to R111): what it answers in a state whose case is known, and what it moves. -/

namespace Sys2Proof.Machine

/-- R102: a header accepted while IDLE starts a frame. -/
theorem execFeed_header_of_idle {s : State} (hp : s.txPending = false) (ha : s.accumulating = false) :
    execFeed header s =
      .next ((s.setFramer true 1 (writeByte s.buf 0 header)).setReport (.consumed Output.empty)) := by
  simp [execFeed, hp, ha, feedIdle]

/-- R103: any other byte accepted while IDLE is discarded. -/
theorem execFeed_other_of_idle {b : Byte} {s : State} (hp : s.txPending = false) (ha : s.accumulating = false)
    (hb : b ≠ header) : execFeed b s = .next (s.setReport (.consumed Output.empty)) := by
  simp [execFeed, hp, ha, feedIdle, hb]

/-- R104: a byte accepted below position 6 is appended. -/
theorem execFeed_of_position_lt_six {b : Byte} {s : State} (hp : s.txPending = false) (ha : s.accumulating = true)
    (hlt : s.position.toNat < 6) :
    execFeed b s = .next ((s.setFramer true (s.position + 1) (writeByte s.buf s.position.toNat b)).setReport
      (.consumed Output.empty)) := by
  simp [execFeed, hp, ha, feedAccumulating_of_lt hlt]

/-- R111: a FEED is held while a transmit is pending. -/
theorem execFeed_of_pending (b : Byte) {s : State} (hp : s.txPending = true) :
    execFeed b s = .next (s.setReport (.held (encode (.feed b)))) := by
  simp [execFeed, hp]

/-- A completing step leaves the Framer IDLE and touches neither the parameters nor the input (R105). -/
theorem completeFrame_idle {b : Byte} {s t : State} (h : completeFrame b s = .next t) :
    t.accumulating = false ∧ t.position = 0 ∧ t.cfg = s.cfg ∧ t.words = s.words := by
  obtain ⟨-, rfl⟩ | ⟨pkt, -, rfl⟩ := completeFrame_cases h
  · exact ⟨rfl, rfl, rfl, rfl⟩
  · exact ⟨rfl, rfl, rfl, rfl⟩

/-- The header that starts a frame is written at index 0 (R102). -/
theorem writeByte_zero (f : Bytes7) (b : Byte) : writeByte f 0 b = #v[b, f[1], f[2], f[3], f[4], f[5], f[6]] := by
  apply bytes7_ext <;> simp [writeByte]

/-- Settles O25: the completing step reports the frame and its flags, and these are read bit by bit. -/
theorem seventhByteCompletesTheFrame : Obligations.SeventhByteCompletesTheFrame := by
  intro b s hp ha h6
  obtain ⟨t, ht⟩ := execFeed_next b s
  have hc : completeFrame b s = .next t := (execFeed_of_position_six hp ha h6).symm.trans ht
  obtain ⟨hacc, hpos, hcfg, hwords⟩ := completeFrame_idle hc
  obtain ⟨hcsum, hhdr, hvalid⟩ := validatorFlags_bits (writeByte s.buf 6 b)
  refine ⟨t, _, validatorFlags (writeByte s.buf 6 b), ht, completeFrame_report ha h6 hc, hacc, hpos, hcfg, hwords, ?_⟩
  rw [feedRecord_of_complete ha h6]
  refine ⟨congrArg some (writeByte_six s.buf b), rfl, ?_, ?_, ?_, rfl, rfl, rfl, rfl⟩
  · rw [hcsum, csumOk_writeByte_six_iff]
  · rw [hhdr, hdrOk_iff, writeByte_six]
    rfl
  · rw [hvalid, hcsum, hhdr, valid_iff, and_comm]

/-- Settles O34: a FEED that is held and every other operation but RESET leave the Framer's part alone. -/
theorem onlyFeedAndResetMoveTheFramer : Obligations.OnlyFeedAndResetMoveTheFramer := by
  intro i s t h
  obtain ⟨b, rfl, hf⟩ | ⟨ok, rfl, -, rfl⟩ | ⟨hreset, -⟩ | ⟨o, -, rfl⟩ := exec_cases h
  · cases hp : s.txPending with
    | false => exact .inr (.inl ⟨rfl, b, rfl⟩)
    | true =>
      rw [execFeed_of_pending b hp] at hf
      cases hf
      exact .inr (.inr ⟨rfl, rfl, rfl⟩)
  · exact .inr (.inr ⟨rfl, rfl, rfl⟩)
  · exact .inl hreset
  · exact .inr (.inr ⟨rfl, rfl, rfl⟩)

/-- Settles O22: the buffer with the header at index 0, byte by byte. -/
theorem feedHeaderStartsAFrame : Obligations.FeedHeaderStartsAFrame := by
  intro s hp ha
  rw [← writeByte_zero]
  exact execFeed_header_of_idle hp ha

/-- Settles O23: the byte discarded while IDLE. -/
theorem feedOtherByteIsDiscarded : Obligations.FeedOtherByteIsDiscarded :=
  fun _ _ hp ha hb => execFeed_other_of_idle hp ha hb

/-- Settles O24: below position 6 the byte is appended, and the Framer was ACCUMULATING already. -/
theorem feedAppendsWhileAccumulating : Obligations.FeedAppendsWhileAccumulating := by
  intro b s hp ha _ h5
  have hnext := execFeed_of_position_lt_six (b := b) hp ha (Nat.lt_succ_of_le h5)
  rw [← ha] at hnext
  exact hnext

/-- Settles O30: the hold, and the operations that clear the pending request. -/
theorem feedIsHeldWhilePending : Obligations.FeedIsHeldWhilePending := by
  refine fun b s hp => ⟨execFeed_of_pending b hp, fun i t h hclear => ?_⟩
  obtain ⟨hi, -⟩ | ⟨_, -, hidle, -⟩ | ⟨hkept, -⟩ := exec_tx_cases h
  · exact hi
  · simp [hp] at hidle
  · simp [hp, hclear] at hkept

/-- A FEED is consumed where no transmit is pending (R32). -/
theorem execFeed_consumed (b : Byte) {s : State} (hp : s.txPending = false) :
    ∃ t o, execFeed b s = .next t ∧ t.report = .consumed o := by
  obtain ⟨t, ht⟩ := execFeed_next b s
  exact ⟨t, feedRecord b s, ht, by simpa [hp] using execFeed_report ht⟩

/-- Settles O33: both answers leave no transmit pending, so the FEED after them is consumed. -/
theorem heldByteIsAcceptedAfterTheAnswer : Obligations.HeldByteIsAcceptedAfterTheAnswer := by
  intro b ok s hp i hi
  have hanswer : ∃ t, exec i s = .next t ∧ t.txPending = false := by
    obtain rfl | rfl : i = .txdone ok ∨ i = .reset := by simpa using hi
    · exact ⟨_, execTxdone_of_pending ok hp, rfl⟩
    · exact ⟨_, rfl, rfl⟩
  obtain ⟨t, ht, hclear⟩ := hanswer
  obtain ⟨u, o, hu, hr⟩ := execFeed_consumed b hclear
  exact ⟨t, u, o, ht, hu, hr⟩

end Sys2Proof.Machine
end

section
/-! PROOFS. Emitted frames begin with the header (R112), and bytes before a header are dropped (R113). -/

namespace Sys2Proof.Machine

/-- A record with a frame is that of the byte that completed it, and carries its flags (R107). -/
theorem consumedRecord_frame {i : Instr} {s : State} {f : Bytes7} (h : (consumedRecord i s).frame = some f) :
    s.accumulating = true ∧ (∃ b, f = writeByte s.buf 6 b) ∧
      (consumedRecord i s).frameFlags = some (validatorFlags f) := by
  cases i with
  | feed b =>
    by_cases hc : s.accumulating = true ∧ s.position = 6
    · obtain ⟨ha, h6⟩ := hc
      simp only [consumedRecord, feedRecord_of_complete ha h6] at h ⊢
      cases h
      exact ⟨ha, ⟨b, rfl⟩, rfl⟩
    · simp [consumedRecord, feedRecord_of_incomplete (not_and.mp hc), Output.empty] at h
  | _ => cases h

/-- Settles O50: the frame in progress began with the header, and the seventh byte leaves byte 0 as it was. -/
theorem everyEmittedFrameBeginsWithTheHeader : Obligations.EveryEmittedFrameBeginsWithTheHeader := by
  intro s t o f hs h hr hf
  obtain ⟨-, rfl⟩ | ⟨w, ws, i, -, -, he⟩ := step_cases h
  · cases hr
  · obtain rfl := exec_record he hr
    obtain ⟨ha, ⟨b, rfl⟩, hflags⟩ := consumedRecord_frame hf
    obtain ⟨-, hframe, -⟩ := hs
    obtain ⟨-, -, h0⟩ := hframe ha
    have hhdr : (writeByte s.buf 6 b)[0] = 0xAA := by simpa [writeByte_six] using h0
    obtain ⟨-, hbit, -⟩ := validatorFlags_bits (writeByte s.buf 6 b)
    exact ⟨hhdr, _, hflags, hbit.trans ((hdrOk_iff _).mpr hhdr)⟩

/-- The step on a byte without a header, while IDLE, only takes the presentation (R103). -/
theorem step_feed_other {b : Byte} {s : State} {ws : List Word} (hp : s.txPending = false) (ha : s.accumulating = false)
    (hb : b ≠ header) (hw : s.words = encode (.feed b) :: ws) :
    step s = .next ((s.setWords ws).setReport (.consumed Output.empty)) := by
  rw [step_encode hw]
  have hp' : (s.setWords ws).txPending = false := hp
  exact execFeed_other_of_idle hp' ha hb

/-- Settles O51, by induction on the nonempty run: each step only takes its presentation. -/
theorem leadingGarbageIsDropped : Obligations.LeadingGarbageIsDropped := by
  intro bs ws s hp ha hne
  induction bs, hne using List.recNeNil generalizing s with
  | singleton b =>
    intro hbs hw
    have hstep := step_feed_other hp ha (hbs b (List.mem_singleton_self b)) hw
    refine ⟨run_succ hstep, ?_⟩
    rw [List.length_singleton, observe_succ hw hstep]
    simp [observe, Event.output, Output.empty]
  | cons b bs hne ih =>
    intro hbs hw
    obtain ⟨hb, hbs⟩ := List.forall_mem_cons.mp hbs
    have hstep := step_feed_other hp ha hb hw
    obtain ⟨hrun, hobs⟩ :=
      ih ((s.setWords (bs.map (fun b => encode (.feed b)) ++ ws)).setReport (.consumed Output.empty)) hp ha hbs rfl
    refine ⟨(run_succ hstep).trans hrun, ?_⟩
    rw [List.length_cons, observe_succ hw hstep]
    exact List.forall_mem_cons.mpr ⟨rfl, hobs⟩

end Sys2Proof.Machine
end

section
/-! PROOFS. The accepted bytes as frames (R23, R115): one presentation of a run cuts its accepted byte as the rule says, and the
cut of a stream is the cuts of its pieces in order. -/

namespace Sys2Proof.Machine

/-- Cutting a stream in two pieces: the second is cut from the partial frame the first leaves. -/
theorem cutFrames_append (p bs cs : List Byte) :
    cutFrames p (bs ++ cs) =
      ((cutFrames p bs).1 ++ (cutFrames (cutFrames p bs).2 cs).1, (cutFrames (cutFrames p bs).2 cs).2) := by
  induction bs generalizing p with
  | nil => simp [cutFrames]
  | cons b bs ih =>
    simp only [List.cons_append, cutFrames]
    split_ifs
    · exact ih _
    · exact ih _
    · simp [ih]
    · exact ih _

/-- Between frames a header starts a partial frame (R102). -/
theorem cutFrames_nil_header : cutFrames [] [header] = ([], [header]) := by simp [cutFrames]

/-- Between frames any other byte is discarded (R103). -/
theorem cutFrames_nil_other {b : Byte} (hb : b ≠ header) : cutFrames [] [b] = ([], []) := by simp [cutFrames, hb]

/-- A byte after a partial frame of fewer than six bytes lengthens it (R104). -/
theorem cutFrames_singleton_of_lt {p : List Byte} (b : Byte) (hne : p ≠ []) (hlen : p.length < 6) :
    cutFrames p [b] = ([], p ++ [b]) := by
  have hlast : p.length + 1 ≠ frameSize := by
    unfold frameSize
    omega
  simp [cutFrames, hne, hlast]

/-- A byte after a partial frame of six bytes completes it (R105). -/
theorem cutFrames_singleton_of_six {p : List Byte} (b : Byte) (hlen : p.length = 6) :
    cutFrames p [b] = ([p ++ [b]], []) := by
  have hne : p ≠ [] := by
    rintro rfl
    cases hlen
  simp [cutFrames, hne, hlen, frameSize]

@[simp] theorem length_partialFrame (s : State) : s.partialFrame.length = s.position.toNat := by
  have hpos := s.position.isLt
  simp only [State.partialFrame, List.length_take, Vector.length_toList]
  omega

theorem partialFrame_of_idle {s : State} (hs : s.Inv) (ha : s.accumulating = false) : s.partialFrame = [] := by
  obtain ⟨hidle, -, -⟩ := hs
  simp [State.partialFrame, hidle ha]

/-- The frame that the seventh byte completes is the partial frame and that byte (R105, R107). -/
theorem toList_writeByte_six {s : State} (h6 : s.position = 6) (b : Byte) :
    (writeByte s.buf 6 b).toList = s.partialFrame ++ [b] := by
  have htake := take_succ_writeByte s.buf (show 6 < 7 by decide) b
  rw [List.take_of_length_le (by simp)] at htake
  simpa [State.partialFrame, h6] using htake

theorem framesOf_cons (e : Event) (es : List Event) : framesOf (e :: es) = framesOf [e] ++ framesOf es :=
  List.filterMap_append (l := [e])

theorem acceptedOf_cons (e : Event) (es : List Event) : acceptedOf (e :: es) = acceptedOf [e] ++ acceptedOf es :=
  List.filterMap_append (l := [e])

theorem framesOf_consumed (w : Word) (o : Output) : framesOf [.shown w (.consumed o)] = o.frame.toList := by
  cases h : o.frame <;> simp [framesOf, Event.output, h]

theorem acceptedOf_consumed_feed {w : Word} {b : Byte} (hd : decode w = .ok (.feed b)) (o : Output) :
    acceptedOf [.shown w (.consumed o)] = [b] := by
  simp [acceptedOf, Event.acceptedByte, hd]

theorem acceptedOf_consumed_of_ne_feed {w : Word} {i : Instr} (hd : decode w = .ok i) (hne : ∀ b, i ≠ .feed b)
    (o : Output) : acceptedOf [.shown w (.consumed o)] = [] := by
  cases i with
  | feed b => exact absurd rfl (hne b)
  | _ => simp [acceptedOf, Event.acceptedByte, hd]

/-- An operation that only computes is no FEED and emits no frame. -/
theorem pureRecord_some {i : Instr} {o : Output} (h : pureRecord i = some o) : (∀ b, i ≠ .feed b) ∧ o.frame = none := by
  refine ⟨?_, ?_⟩
  · rintro b rfl
    cases h
  · cases i <;> cases h <;> rfl

/-- What a presentation shows is the cut of the byte it gave the Framer, if any, from the frame in progress in `s`; the
frame in progress in `t` is what is left over (R115). -/
def CutsBy (s t : State) (e : Event) : Prop :=
  cutFrames s.partialFrame (acceptedOf [e]) = ((framesOf [e]).map Vector.toList, t.partialFrame)

theorem cutsBy_of_consumed_feed {w : Word} {b : Byte} {s t : State} {o : Output} (hd : decode w = .ok (.feed b))
    (hr : t.report = .consumed o)
    (hcut : cutFrames s.partialFrame [b] = (o.frame.toList.map Vector.toList, t.partialFrame)) :
    CutsBy s t (.shown w t.report) := by
  rw [CutsBy, hr, acceptedOf_consumed_feed hd, framesOf_consumed]
  exact hcut

/-- A completing step emits the frame and leaves none in progress (R105, R107). -/
theorem completeFrame_cut {b : Byte} {s t : State} (h6 : s.position = 6) (h : completeFrame b s = .next t) :
    ∃ o, t.report = .consumed o ∧
      cutFrames s.partialFrame [b] = (o.frame.toList.map Vector.toList, t.partialFrame) := by
  have hlen : s.partialFrame.length = 6 := by simp [h6]
  rw [cutFrames_singleton_of_six b hlen, ← toList_writeByte_six h6]
  obtain ⟨-, rfl⟩ | ⟨pkt, -, rfl⟩ := completeFrame_cases h
  · exact ⟨_, rfl, rfl⟩
  · exact ⟨_, rfl, rfl⟩

theorem cutsBy_feed {w : Word} {b : Byte} {s t : State} (hs : s.Inv) (hd : decode w = .ok (.feed b))
    (h : execFeed b s = .next t) : CutsBy s t (.shown w t.report) := by
  obtain ⟨-, rfl⟩ | ⟨-, ha, rfl, rfl⟩ | ⟨-, ha, hb, rfl⟩ | ⟨-, ha, hlt, rfl⟩ | ⟨-, -, h6, hc⟩ | ⟨-, ha, h7, -⟩ :=
    execFeed_cases h
  · rfl
  · refine cutsBy_of_consumed_feed hd rfl ?_
    rw [partialFrame_of_idle hs ha, cutFrames_nil_header]
    exact congrArg (Prod.mk []) (take_succ_writeByte s.buf (Nat.succ_pos 6) header).symm
  · refine cutsBy_of_consumed_feed hd rfl ?_
    have hidle : (s.setReport (.consumed Output.empty)).partialFrame = [] := partialFrame_of_idle hs ha
    rw [hidle, partialFrame_of_idle hs ha, cutFrames_nil_other hb]
    rfl
  · obtain ⟨-, hframe, -⟩ := hs
    obtain ⟨hpos, -, -⟩ := hframe ha
    have hne : s.partialFrame ≠ [] := by
      rw [← List.length_pos_iff, length_partialFrame]
      exact hpos
    have hnext := (congrArg (List.take · _) (toNat_position_succ hlt)).trans (take_succ_writeByte s.buf (by omega) b)
    refine cutsBy_of_consumed_feed hd rfl ?_
    rw [cutFrames_singleton_of_lt b hne (by simpa using hlt)]
    exact congrArg (Prod.mk []) hnext.symm
  · obtain ⟨o, hr, hcut⟩ := completeFrame_cut h6 hc
    exact cutsBy_of_consumed_feed hd hr hcut
  · obtain ⟨-, hframe, -⟩ := hs
    obtain ⟨-, h6, -⟩ := hframe ha
    simp [h7] at h6

/-- A presentation that gives the Framer no byte shows no frame and keeps the frame in progress. -/
theorem cutsBy_of_ne_feed {w : Word} {i : Instr} {s t : State} {o : Output} (hd : decode w = .ok i)
    (hne : ∀ b, i ≠ .feed b) (hframe : o.frame = none) (hpart : t.partialFrame = s.partialFrame) :
    CutsBy s t (.shown w (.consumed o)) := by
  rw [CutsBy, acceptedOf_consumed_of_ne_feed hd hne, framesOf_consumed, hframe, hpart]
  rfl

theorem cutsBy_exec {w : Word} {i : Instr} {s t : State} (hs : s.Inv) (hd : decode w = .ok i) (hne : i ≠ .reset)
    (h : exec i s = .next t) : CutsBy s t (.shown w t.report) := by
  obtain ⟨b, rfl, hf⟩ | ⟨ok, rfl, -, rfl⟩ | ⟨rfl, -⟩ | ⟨o, ho, rfl⟩ := exec_cases h
  · exact cutsBy_feed hs hd hf
  · exact cutsBy_of_ne_feed hd nofun rfl rfl
  · exact absurd rfl hne
  · obtain ⟨hfeed, hframe⟩ := pureRecord_some ho
    exact cutsBy_of_ne_feed hd hfeed hframe rfl

/-- One presentation without a RESET (R115). -/
theorem cutsBy_step {w : Word} {ws : List Word} {s t : State} (hs : s.Inv) (hw : s.words = w :: ws)
    (h : step s = .next t) (hreset : (Event.shown w t.report).isReset = false) :
    CutsBy s t (.shown w t.report) := by
  obtain ⟨hnil, -⟩ | ⟨w', ws', i, hw', hd, he⟩ := step_cases h
  · simp [hw] at hnil
  · obtain ⟨rfl, rfl⟩ := List.cons.inj (hw.symm.trans hw')
    have hne : i ≠ .reset := by
      rintro rfl
      simp [Event.isReset, hd] at hreset
    have hsw : (s.setWords ws).Inv := hs
    have hcut : CutsBy (s.setWords ws) t (.shown w t.report) := cutsBy_exec hsw hd hne he
    exact hcut

/-- Settles O52, by induction on the presentations: each cuts its own byte, and the cuts come one after the other. -/
theorem acceptedBytesAreCutIntoFrames : Obligations.AcceptedBytesAreCutIntoFrames := by
  intro k
  induction k with
  | zero => exact fun _ _ _ => rfl
  | succ k ih =>
    intro s hs hreset
    cases hw : s.words with
    | nil =>
      simp only [observe, finalState, hw]
      rfl
    | cons w ws =>
      cases h : step s with
      | next t =>
        rw [observe_succ hw h] at hreset ⊢
        rw [finalState_succ hw h]
        obtain ⟨hfirst, hrest⟩ := List.forall_mem_cons.mp hreset
        have hcut : CutsBy s t (.shown w t.report) := cutsBy_step hs hw h hfirst
        have htail := ih t (everyStepKeepsTheInvariant s t hs h) hrest
        rw [acceptedOf_cons, framesOf_cons, cutFrames_append, hcut, ← htail, List.map_append]
      | fault f =>
        simp only [observe, finalState, hw, h]
        rfl
      | refused r =>
        simp only [observe, finalState, hw, h]
        rfl

end Sys2Proof.Machine
end

section
/-! PROOFS. Runs, presentation by presentation (R179): one induction for all statements about a run from any state, and what an
observation shows beside its frames and accepted bytes. -/

namespace Sys2Proof.Machine

/-- The induction over a run: what holds of the empty observation and of a fault alone, and is kept when one more
presentation is put in front, holds of every run. -/
theorem run_induction {P : State → List Event → State → Prop} (nil : ∀ s, P s [] s)
    (fault : ∀ s f, P s [.faulted f] s)
    (shown : ∀ s t w ws i es u, decode w = .ok i → exec i (s.setWords ws) = .next t → P t es u →
      P s (.shown w t.report :: es) u) (k : Nat) (s : State) : P s (observe k s) (finalState k s) := by
  induction k generalizing s with
  | zero => exact nil s
  | succ k ih =>
    cases hw : s.words with
    | nil => simpa [observe, finalState, hw] using nil s
    | cons w ws =>
      cases h : step s with
      | next t =>
        obtain ⟨hnil, -⟩ | ⟨w', ws', i, hw', hd, he⟩ := step_cases h
        · simp [hw] at hnil
        · obtain ⟨rfl, rfl⟩ := List.cons.inj (hw.symm.trans hw')
          rw [observe_succ hw h, finalState_succ hw h]
          exact shown s t w ws i _ _ hd he (ih t)
      | fault f => simpa [observe, finalState, hw, h] using fault s f
      | refused r => simpa [observe, finalState, hw, h] using nil s

theorem requestsOf_cons (e : Event) (es : List Event) : requestsOf (e :: es) = requestsOf [e] ++ requestsOf es :=
  List.filterMap_append (l := [e])

theorem outcomesOf_cons (e : Event) (es : List Event) : outcomesOf (e :: es) = outcomesOf [e] ++ outcomesOf es :=
  List.filterMap_append (l := [e])

theorem requestsOf_consumed (w : Word) (o : Output) : requestsOf [.shown w (.consumed o)] = o.txReq.toList := by
  cases h : o.txReq <;> simp [requestsOf, Event.output, h]

theorem outcomesOf_consumed (w : Word) (o : Output) : outcomesOf [.shown w (.consumed o)] = o.outcome.toList := by
  cases h : o.outcome <;> simp [outcomesOf, Event.output, h]

end Sys2Proof.Machine
end

section
/-! PROOFS. The requests of a run are its completed frames, forwarded (R120 to R125). -/

namespace Sys2Proof.Machine

/-- The record of one operation has the request of the frame it has, and no other (R120). -/
theorem consumedRecord_txReq_eq (i : Instr) (s : State) :
    (consumedRecord i s).txReq = (consumedRecord i s).frame.bind (forwardedPacket s.cfg) := by
  cases i with
  | feed b =>
    by_cases hc : s.accumulating = true ∧ s.position = 6
    · obtain ⟨ha, h6⟩ := hc
      simp [consumedRecord, feedRecord_of_complete ha h6, frameRecord]
    · simp [consumedRecord, feedRecord_of_incomplete (not_and.mp hc), Output.empty]
  | _ => rfl

/-- One presentation shows the request of the frame it shows, and no other (R120). -/
theorem requestsOf_exec {w : Word} {i : Instr} {s t : State} (h : exec i s = .next t) :
    requestsOf [.shown w t.report] = (framesOf [.shown w t.report]).filterMap (forwardedPacket s.cfg) := by
  cases hr : t.report with
  | consumed o =>
    obtain rfl := exec_record h hr
    rw [requestsOf_consumed, framesOf_consumed, consumedRecord_txReq_eq]
    cases (consumedRecord i s).frame with
    | none => rfl
    | some f => cases hf : forwardedPacket s.cfg f <;> simp [hf]
  | held v => rfl
  | noStep => rfl

/-- The requests of a run are its frames, each forwarded under the configuration of the first state (R125, R172). -/
theorem requestsOf_observe (k : Nat) (s : State) :
    requestsOf (observe k s) = (framesOf (observe k s)).filterMap (forwardedPacket s.cfg) := by
  refine run_induction (P := fun s es _ => requestsOf es = (framesOf es).filterMap (forwardedPacket s.cfg))
    (fun _ => rfl) (fun _ _ => rfl) (fun s t w ws i es _ _ he ih => ?_) k s
  have hcfg : t.cfg = s.cfg := (exec_cfg he).trans (s.setWords_cfg ws)
  rw [requestsOf_cons, framesOf_cons, List.filterMap_append, requestsOf_exec he, ih, hcfg, State.setWords_cfg]

theorem csumOk_eq_false_iff (f : Bytes7) :
    csumOk f = false ↔ f[6] ≠ f[0] ^^^ f[1] ^^^ f[2] ^^^ f[3] ^^^ f[4] ^^^ f[5] := by
  rw [← Bool.not_eq_true, csumOk_iff]

/-- The frames the checksum policy drops (R121). -/
theorem forwardedPacket_eq_none_iff {cfg : Config} {f : Bytes7} :
    forwardedPacket cfg f = none ↔
      cfg.check = .reject ∧ f[6] ≠ f[0] ^^^ f[1] ^^^ f[2] ^^^ f[3] ^^^ f[4] ^^^ f[5] := by
  rw [forwardedPacket_eq, ← csumOk_eq_false_iff]
  simp

/-- Every other frame is forwarded with the packet of the forwarding policy (R122, R123). -/
theorem forwardedPacket_of_passed {cfg : Config} {f : Bytes7}
    (h : ¬(cfg.check = .reject ∧ f[6] ≠ f[0] ^^^ f[1] ^^^ f[2] ^^^ f[3] ^^^ f[4] ^^^ f[5])) :
    forwardedPacket cfg f = some (outboundPacket cfg.forward f) := by
  rw [← csumOk_eq_false_iff] at h
  exact (forwardedPacket_eq cfg f).trans (if_neg h)

/-- The packet of a frame, byte by byte, where the checksum policy passes it (R121 to R123). -/
theorem forwardedPacket_bytes (cfg : Config) (f : Bytes7) :
    forwardedPacket cfg f =
      if cfg.check = .reject ∧ f[6] ≠ f[0] ^^^ f[1] ^^^ f[2] ^^^ f[3] ^^^ f[4] ^^^ f[5] then none
      else if cfg.forward = .commandOnly then some #v[f[0], f[1], 0, 0, 0, 0, f[0] ^^^ f[1]]
      else some #v[f[0], f[1], f[2], f[3], f[4], f[5], f[0] ^^^ f[1] ^^^ f[2] ^^^ f[3] ^^^ f[4] ^^^ f[5]] := by
  split_ifs with hdrop hforward
  · exact forwardedPacket_eq_none_iff.mpr hdrop
  · rw [forwardedPacket_of_passed hdrop, hforward, outboundPacket_eq]
  · have hfull : cfg.forward = .full := by
      cases hp : cfg.forward with
      | commandOnly => exact absurd hp hforward
      | full => rfl
    rw [forwardedPacket_of_passed hdrop, hfull, outboundPacket_eq]

/-- Settles O53: the requests are the frames forwarded, and the forwarded packet is the one the rule writes out. -/
theorem eachPassedFrameIsRequestedOnce : Obligations.EachPassedFrameIsRequestedOnce := by
  intro k s
  rw [requestsOf_observe, funext (forwardedPacket_bytes s.cfg)]

end Sys2Proof.Machine
end

section
/-! PROOFS. The completing step, the packet it requests, and the answer (R121 to R127). -/

namespace Sys2Proof.Machine

/-- Settles O26: the two ends of the completing step, told apart by the checksum policy. -/
theorem checksumPolicyDecidesTheRequest : Obligations.ChecksumPolicyDecidesTheRequest := by
  intro b s hp ha h6
  obtain ⟨t, ht⟩ := execFeed_next b s
  have hc : completeFrame b s = .next t := (execFeed_of_position_six hp ha h6).symm.trans ht
  obtain ⟨hacc, hpos, -, -⟩ := completeFrame_idle hc
  have hdrop : forwardedPacket s.cfg (writeByte s.buf 6 b) = none ↔
      s.cfg.check = .reject ∧ b ≠ s.buf[0] ^^^ s.buf[1] ^^^ s.buf[2] ^^^ s.buf[3] ^^^ s.buf[4] ^^^ s.buf[5] := by
    rw [forwardedPacket_eq_none_iff, writeByte_six]
    rfl
  refine ⟨t, _, ht, completeFrame_report ha h6 hc, hacc, hpos, ?_⟩
  rw [feedRecord_of_complete ha h6]
  obtain ⟨hf, rfl⟩ | ⟨pkt, hf, rfl⟩ := completeFrame_cases hc
  · rw [hf, if_pos (hdrop.mp hf)]
    exact ⟨rfl, hp, rfl⟩
  · have hpass := mt hdrop.mpr (hf ▸ Option.some_ne_none pkt)
    rw [hf, if_neg hpass]
    exact ⟨rfl, rfl⟩

/-- Under IGNORE the completing step leaves the packet of the forwarding policy pending (R121). -/
theorem execFeed_of_ignore {b : Byte} {s : State} {p : ForwardPolicy} (hp : s.txPending = false)
    (ha : s.accumulating = true) (h6 : s.position = 6) (hfw : s.cfg.forward = p) (hi : s.cfg.check = .ignore) :
    ∃ t, execFeed b s = .next t ∧ t.txPending = true ∧
      t.txPkt = outboundPacket p #v[s.buf[0], s.buf[1], s.buf[2], s.buf[3], s.buf[4], s.buf[5], b] := by
  have hf : forwardedPacket s.cfg (writeByte s.buf 6 b) = some (outboundPacket p (writeByte s.buf 6 b)) :=
    hfw ▸ forwardedPacket_of_passed (by simp [hi])
  rw [← writeByte_six]
  exact ⟨_, (execFeed_of_position_six hp ha h6).trans (completeFrame_of_forwarded hf), rfl, rfl⟩

/-- Settles O27: COMMAND_ONLY forwards a packet built from header and command. -/
theorem commandOnlyForwardsTheCommand : Obligations.CommandOnlyForwardsTheCommand := by
  intro b s hp ha h6 hfw hi
  obtain ⟨t, ht, hpend, hpkt⟩ := execFeed_of_ignore hp ha h6 hfw hi
  exact ⟨t, ht, hpend, hpkt.trans (buildPacket_eq _ _)⟩

/-- Settles O28: FULL forwards the frame with its checksum stamped afresh. -/
theorem fullForwardsThePayload : Obligations.FullForwardsThePayload := by
  intro b s hp ha h6 hfw hi
  obtain ⟨t, ht, hpend, hpkt⟩ := execFeed_of_ignore hp ha h6 hfw hi
  exact ⟨t, ht, hpend, hpkt.trans (stampChecksum_eq _)⟩

/-- Under COMMAND_ONLY the payload of what is forwarded is zero (R122). -/
theorem payload_zero_of_forwarded {cfg : Config} {f pkt : Bytes7} (hf : forwardedPacket cfg f = some pkt)
    (hc : cfg.forward = .commandOnly) : pkt[2] = 0x00 ∧ pkt[3] = 0x00 ∧ pkt[4] = 0x00 ∧ pkt[5] = 0x00 := by
  rw [forwardedPacket_eq, outboundPacket_eq, hc] at hf
  split at hf
  · cases hf
  · cases hf
    exact ⟨rfl, rfl, rfl, rfl⟩

/-- Settles O39: a request is a forwarded frame in progress, which began with the header. -/
theorem everyRequestedPacketIsValid : Obligations.EveryRequestedPacketIsValid := by
  intro s t o pkt hs h hr hq
  obtain ⟨-, rfl⟩ | ⟨w, ws, i, -, -, he⟩ := step_cases h
  · cases hr
  · obtain rfl := exec_record he hr
    obtain ⟨b, rfl, ha, -, hf⟩ := consumedRecord_txReq hq
    obtain ⟨-, hframe, -⟩ := hs
    obtain ⟨-, -, h0⟩ := hframe ha
    have hhdr : (writeByte s.buf 6 b)[0] = 0xAA := by simpa [writeByte_six] using h0
    obtain ⟨hhdrOk, hcsumOk⟩ := (valid_iff pkt).mp (valid_of_forwarded hf hhdr)
    exact ⟨(hdrOk_iff pkt).mp hhdrOk, (csumOk_iff pkt).mp hcsumOk, payload_zero_of_forwarded hf⟩

/-- Settles O35: the state written by the answer, with free values in `tx_pkt`. -/
theorem txdoneEndsTheTransmit : Obligations.TxdoneEndsTheTransmit :=
  fun ok _ hp => ⟨_, _, execTxdone_of_pending ok hp⟩

end Sys2Proof.Machine
end

section
/-! PROOFS. Requests and answers in balance (R125, R129): one presentation without a RESET makes a request, answers one, or leaves
the pending request as it was. -/

namespace Sys2Proof.Machine

/-- The requests shown between two states and the one pending in the first are the outcomes shown and the one pending in the
second. -/
def Balances (s : State) (es : List Event) (t : State) : Prop :=
  (requestsOf es).length + s.txPending.toNat = (outcomesOf es).length + t.txPending.toNat

theorem balances_cons {s t u : State} {e : Event} {es : List Event} (h : Balances s [e] t) (hes : Balances t es u) :
    Balances s (e :: es) u := by
  unfold Balances at h hes ⊢
  rw [requestsOf_cons, outcomesOf_cons, List.length_append, List.length_append]
  omega

theorem balances_of_consumed {w : Word} {s t : State} {o : Output} (hr : t.report = .consumed o)
    (hbal : o.txReq.toList.length + s.txPending.toNat = o.outcome.toList.length + t.txPending.toNat) :
    Balances s [.shown w t.report] t := by
  rw [Balances, hr, requestsOf_consumed, outcomesOf_consumed]
  exact hbal

/-- No request, no outcome, and the pending request as it was. -/
theorem balances_of_silent {w : Word} {s t : State} {o : Output} (hr : t.report = .consumed o) (hq : o.txReq = none)
    (ho : o.outcome = none) (hp : t.txPending = s.txPending) : Balances s [.shown w t.report] t :=
  balances_of_consumed hr (by simp [hq, ho, hp])

/-- A completed frame is dropped, or its request becomes pending (R121, R124). -/
theorem balances_completeFrame {w : Word} {b : Byte} {s t : State} (hp : s.txPending = false)
    (h : completeFrame b s = .next t) : Balances s [.shown w t.report] t := by
  obtain ⟨-, rfl⟩ | ⟨pkt, -, rfl⟩ := completeFrame_cases h
  · exact balances_of_silent rfl rfl rfl rfl
  · exact balances_of_consumed rfl (by rw [hp]; rfl)

theorem balances_feed {w : Word} {b : Byte} {s t : State} (h : execFeed b s = .next t) :
    Balances s [.shown w t.report] t := by
  obtain ⟨-, rfl⟩ | ⟨-, -, -, rfl⟩ | ⟨-, -, -, rfl⟩ | ⟨-, -, -, rfl⟩ | ⟨hp, -, -, hc⟩ | ⟨-, -, -, rfl⟩ :=
    execFeed_cases h
  · rfl
  · exact balances_of_silent rfl rfl rfl rfl
  · exact balances_of_silent rfl rfl rfl rfl
  · exact balances_of_silent rfl rfl rfl rfl
  · exact balances_completeFrame hp hc
  · exact balances_of_silent rfl rfl rfl rfl

/-- An operation that only computes makes no request and answers none. -/
theorem pureRecord_silent {i : Instr} {o : Output} (h : pureRecord i = some o) : o.txReq = none ∧ o.outcome = none := by
  cases i <;> cases h <;> exact ⟨rfl, rfl⟩

theorem balances_exec {w : Word} {i : Instr} {s t : State} (hne : i ≠ .reset) (h : exec i s = .next t) :
    Balances s [.shown w t.report] t := by
  obtain ⟨b, rfl, hf⟩ | ⟨ok, rfl, hp, rfl⟩ | ⟨rfl, -⟩ | ⟨o, ho, rfl⟩ := exec_cases h
  · exact balances_feed hf
  · exact balances_of_consumed rfl (by rw [hp]; rfl)
  · exact absurd rfl hne
  · obtain ⟨hq, hout⟩ := pureRecord_silent ho
    exact balances_of_silent rfl hq hout rfl

theorem ne_reset_of_isReset_false {w : Word} {i : Instr} {r : Report} (hd : decode w = .ok i)
    (h : (Event.shown w r).isReset = false) : i ≠ .reset := by
  rintro rfl
  simp [Event.isReset, hd] at h

/-- Settles O54, by induction over the run: each presentation without a RESET balances, and the balances add up. -/
theorem eachOutcomeAnswersOneRequest : Obligations.EachOutcomeAnswersOneRequest := by
  refine run_induction (P := fun s es u => (∀ e ∈ es, e.isReset = false) → Balances s es u)
    (fun _ _ => rfl) (fun _ _ _ => rfl) (fun s t w ws i es u hd he ih hreset => ?_)
  obtain ⟨hfirst, hrest⟩ := List.forall_mem_cons.mp hreset
  have hbal : Balances (s.setWords ws) [.shown w t.report] t :=
    balances_exec (ne_reset_of_isReset_false hd hfirst) he
  exact balances_cons hbal (ih hrest)

end Sys2Proof.Machine
end

section
/-! PROOFS. The control operations (R140, R141): what NOP and RESET answer in every state. -/

namespace Sys2Proof.Machine

/-- NOP only reports the empty record (R140). -/
theorem exec_nop (s : State) : exec .nop s = .next (s.setReport (.consumed Output.empty)) := emit_next _ s

/-- RESET only reports the empty record, beside the reset of the Framer and of the forwarding stage (R141). -/
theorem exec_reset (s : State) : exec .reset s = .next (s.resetParts.setReport (.consumed Output.empty)) :=
  emit_next _ s.resetParts

/-- The reset writes the five components of R34 and counts the free values it draws; the configuration, the input and the
report stay (R141). -/
theorem resetParts_eq (s : State) :
    s.resetParts = { s with
      accumulating := false, position := 0, buf := freeBytes s.draws,
      txPending := false, txPkt := freeBytes (s.draws + 7), draws := s.draws + 14 } := rfl

/-- Settles O41: the one write of NOP is its report, the empty record. -/
theorem nopChangesNothing : Obligations.NopChangesNothing := exec_nop

/-- Settles O42: the state written by the reset, with free values in `buf` and `tx_pkt`. -/
theorem resetReturnsToTheResetState : Obligations.ResetReturnsToTheResetState := by
  refine fun s => ⟨freeBytes s.draws, freeBytes (s.draws + 7), s.draws + 14, ?_⟩
  rw [exec_reset, resetParts_eq]
  rfl

end Sys2Proof.Machine
end

section
/-! PROOFS. The faults (R151 to R155): when an operation and a step fault, and which fault each raises. -/

namespace Sys2Proof.Machine

/-- R154: an answer to no request faults. -/
theorem execTxdone_of_not_pending (ok : Bool) {s : State} (hp : s.txPending = false) :
    execTxdone ok s = .fault (.txdoneUnexpected (encode (.txdone ok))) := by
  simp [execTxdone, hp]

/-- Settles O12: the fault and its two fields. -/
theorem unexpectedTxdoneFaults : Obligations.UnexpectedTxdoneFaults :=
  fun ok _ hp => ⟨execTxdone_of_not_pending ok hp, rfl, rfl⟩

/-- Settles O44: RESET leaves no transmit pending, so the answer is unexpected. -/
theorem lateAnswerAfterResetFaults : Obligations.LateAnswerAfterResetFaults :=
  fun ok s _ => ⟨_, exec_reset s, rfl, execTxdone_of_not_pending ok rfl⟩

/-- Every operation answers a next state, but for a TXDONE with no transmit pending (R151). -/
theorem exec_next_or_txdone_fault (i : Instr) (s : State) :
    (∃ t, exec i s = .next t) ∨
    (∃ ok, i = .txdone ok ∧ s.txPending = false ∧ exec i s = .fault (.txdoneUnexpected (encode i))) := by
  cases i with
  | txdone ok =>
    cases hp : s.txPending with
    | true => exact .inl ⟨_, execTxdone_of_pending ok hp⟩
    | false => exact .inr ⟨ok, rfl, rfl, execTxdone_of_not_pending ok hp⟩
  | feed b => exact .inl (execFeed_next b s)
  | nop | csum | build | valid | reset => exact .inl ⟨_, rfl⟩

theorem exec_fault_iff {i : Instr} {s : State} {f : Fault} :
    exec i s = .fault f ↔ ∃ ok, i = .txdone ok ∧ s.txPending = false ∧ f = .txdoneUnexpected (encode i) := by
  constructor
  · intro h
    obtain ⟨t, ht⟩ | ⟨ok, hi, hp, hf⟩ := exec_next_or_txdone_fault i s
    · simp [ht] at h
    · exact ⟨ok, hi, hp, Host.Outcome.fault.inj (h.symm.trans hf)⟩
  · rintro ⟨ok, rfl, hp, rfl⟩
    exact execTxdone_of_not_pending ok hp

theorem exec_ne_refused (i : Instr) (s : State) (r : Refusal) : exec i s ≠ .refused r := by
  obtain ⟨t, ht⟩ | ⟨_, -, -, hf⟩ := exec_next_or_txdone_fault i s
  · simp [ht]
  · simp [hf]

theorem step_of_decode_illegalOp {s : State} {w : Word} {ws : List Word} (hw : s.words = w :: ws)
    (hd : decode w = .illegalOp) : step s = .fault (.illegalOp w) := by
  simp only [step, fetch_cons hw, hd, raise_fault]

theorem step_of_decode_reservedField {s : State} {w : Word} {ws : List Word} (hw : s.words = w :: ws)
    (hd : decode w = .reservedField) : step s = .fault (.reservedField w) := by
  simp only [step, fetch_cons hw, hd, raise_fault]

/-- Settles O11: the decoder's second check fails before any state is looked at. -/
theorem reservedFieldFaults : Obligations.ReservedFieldFaults := by
  intro s w ws hw hop hres
  obtain ⟨-, hdecode, -⟩ := decoderClassifiesEveryWord w
  exact ⟨step_of_decode_reservedField hw (hdecode (Nat.lt_succ_of_le hop) hres), rfl, rfl⟩

/-- The fault of the step on a presented word: a failed check of the decoder, or an unexpected TXDONE, whose recorded encoding is
the presented word (R71, R151). -/
theorem step_fault_iff {s : State} {w : Word} {ws : List Word} {f : Fault} (hw : s.words = w :: ws) :
    step s = .fault f ↔
      (decode w = .illegalOp ∧ f = .illegalOp w) ∨ (decode w = .reservedField ∧ f = .reservedField w) ∨
      (∃ ok, decode w = .ok (.txdone ok) ∧ s.txPending = false ∧ f = .txdoneUnexpected w) := by
  cases hd : decode w with
  | illegalOp => simp [step_of_decode_illegalOp hw hd, eq_comm (a := f)]
  | reservedField => simp [step_of_decode_reservedField hw hd, eq_comm (a := f)]
  | ok i => simp [step_of_decode_ok hw hd, exec_fault_iff, encodeOfDecodeIsTheWord w i hd]

theorem step_ne_refused (s : State) (r : Refusal) : step s ≠ .refused r := by
  cases hw : s.words with
  | nil => simp [step_of_words_nil hw]
  | cons w ws =>
    cases hd : decode w with
    | illegalOp => simp [step_of_decode_illegalOp hw hd]
    | reservedField => simp [step_of_decode_reservedField hw hd]
    | ok i => simpa [step_of_decode_ok hw hd] using exec_ne_refused i (s.setWords ws) r

/-- Settles O13: waiting does not fault, and the step on a presented word faults as `step_fault_iff` says. -/
theorem faultsAreExactlyTheThree : Obligations.FaultsAreExactlyTheThree := by
  refine ⟨fun s f => ⟨fun h => ?_, ?_⟩, fun _ => ⟨rfl, rfl, rfl, rfl, rfl, rfl⟩, step_ne_refused⟩
  · cases hw : s.words with
    | nil => simp [step_of_words_nil hw] at h
    | cons w ws => exact ⟨w, ws, rfl, (step_fault_iff hw).mp h⟩
  · rintro ⟨w, ws, hw, hcause⟩
    exact (step_fault_iff hw).mpr hcause

end Sys2Proof.Machine
end

section
/-! PROOFS. Runs under the contract of host and sink (R156, R161). -/

namespace Sys2Proof.Machine

/-- What the contract allows is an operation of the table, and a TXDONE only to a pending request (R129, R161). -/
theorem contractAllows_iff {s : State} {w : Word} :
    contractAllows s w = true ↔ ∃ i, decode w = .ok i ∧ ((∃ ok, i = .txdone ok) → s.txPending = true) := by
  unfold contractAllows
  cases hd : decode w with
  | ok i => cases i <;> simp [agentOf]
  | illegalOp => simp
  | reservedField => simp

/-- A presentation that keeps the contract is answered with a next state. -/
theorem step_next_of_contractAllows {s : State} {w : Word} {ws : List Word} (hw : s.words = w :: ws)
    (hc : contractAllows s w = true) : ∃ t, step s = .next t := by
  obtain ⟨i, hd, hanswer⟩ := contractAllows_iff.mp hc
  rw [step_of_decode_ok hw hd]
  obtain hnext | ⟨ok, hi, hidle, -⟩ := exec_next_or_txdone_fault i (s.setWords ws)
  · exact hnext
  · have hp : s.txPending = true := hanswer ⟨ok, hi⟩
    simp [hp] at hidle

/-- One presentation of a run that keeps the contract: a next state, from which the rest of the run keeps it. -/
theorem step_of_respectsContract {k : Nat} {s : State} {w : Word} {ws : List Word} (hw : s.words = w :: ws)
    (hk : respectsContract (k + 1) s = true) : ∃ t, step s = .next t ∧ respectsContract k t = true := by
  simp only [respectsContract, hw, Bool.and_eq_true] at hk
  obtain ⟨hc, hrest⟩ := hk
  obtain ⟨t, ht⟩ := step_next_of_contractAllows hw hc
  exact ⟨t, ht, by simpa [ht] using hrest⟩

/-- Settles O14, by induction on the presentations: each that keeps the contract is answered with a next state. -/
theorem contractKeepingRunsNeverFault : Obligations.ContractKeepingRunsNeverFault := by
  intro k
  induction k with
  | zero =>
    intro s _ e f he
    cases he
  | succ k ih =>
    intro s hk e f he
    cases hw : s.words with
    | nil => simp [observe, hw] at he
    | cons w ws =>
      obtain ⟨t, ht, hrest⟩ := step_of_respectsContract hw hk
      rw [observe_succ hw ht] at he
      obtain rfl | he := List.mem_cons.mp he
      · exact Event.noConfusion
      · exact ih t hrest e f he

end Sys2Proof.Machine
end

section
/-! PROOFS. The hold (R157) and the sink that never answers (R174). -/

namespace Sys2Proof.Machine

/-- The report of an operation is a hold exactly for a FEED while a transmit is pending (R157). -/
theorem exec_held_iff {i : Instr} {s t : State} {w : Word} (h : exec i s = .next t) :
    t.report = .held w ↔ (∃ b, i = .feed b) ∧ s.txPending = true ∧ w = encode i := by
  obtain ⟨b, rfl, hf⟩ | ⟨ok, rfl, -, rfl⟩ | ⟨rfl, rfl⟩ | ⟨o, ho, rfl⟩ := exec_cases h
  · rw [execFeed_report hf]
    cases hp : s.txPending <;> simp [eq_comm]
  · simp
  · simp
  · obtain ⟨hne, -⟩ := pureRecord_some ho
    simp [hne]

/-- Settles O32: the hold of a FEED writes the report alone, and no other operation reports one. -/
theorem holdIsFeedAloneAndEndsByTxdoneOrReset : Obligations.HoldIsFeedAloneAndEndsByTxdoneOrReset := by
  refine fun i s t h => ⟨fun w => exec_held_iff h, fun w hr => ?_, fun hp hclear => ?_⟩
  · obtain ⟨⟨b, rfl⟩, hp, rfl⟩ := (exec_held_iff h).mp hr
    exact (Host.Outcome.next.inj ((execFeed_of_pending b hp).symm.trans h)).symm
  · obtain ⟨-, -, hkept⟩ := pendingPacketIsPresentedUnchanged
    obtain ⟨hstill, -⟩ | hend := hkept i s t h hp
    · simp [hclear] at hstill
    · exact hend

/-- While a transmit is pending, the step on a FEED takes the presentation and reports the hold (R111). -/
theorem step_feed_of_pending {b : Byte} {s : State} {ws : List Word} (hp : s.txPending = true)
    (hw : s.words = encode (.feed b) :: ws) :
    step s = .next ((s.setWords ws).setReport (.held (encode (.feed b)))) := by
  have hp' : (s.setWords ws).txPending = true := hp
  exact (step_encode hw).trans (execFeed_of_pending b hp')

/-- Settles O56, by induction on the run of FEEDs: each is held, and the transmit stays pending. -/
theorem unansweredRequestHoldsEveryFeed : Obligations.UnansweredRequestHoldsEveryFeed := by
  intro bs ws
  induction bs with
  | nil =>
    rintro s - rfl
    exact ⟨⟨s.report, rfl⟩, rfl⟩
  | cons b bs ih =>
    intro s hp hw
    have hstep := step_feed_of_pending hp hw
    obtain ⟨⟨r, hrun⟩, hobs⟩ :=
      ih ((s.setWords (bs.map (fun b => encode (.feed b)) ++ ws)).setReport (.held (encode (.feed b)))) hp rfl
    refine ⟨⟨r, (run_succ hstep).trans hrun⟩, ?_⟩
    exact (observe_succ hw hstep).trans (congrArg (_ :: ·) hobs)

end Sys2Proof.Machine
end
